-- ==== Sys2Proof/Word.lean ====
section
/-! DEFINITION. Bytes, the two variants, and the words and eight-word registers whose width the variant
fixes (spec/00_scope.md R6, R7, R9, R10, R12; spec/10_state.md R17, R18). -/

namespace Sys2Proof

/-- A byte, an unsigned value in 0..255 (R12). -/
abbrev Byte := BitVec 8

/-- The variant of an instance: A has 32-bit words (SHA-256), B has 64-bit words (SHA-512) (R2, R6). -/
inductive Variant where
  | a
  | b
deriving DecidableEq, Repr

/-- `W`, the word width in bits (R7). -/
def Variant.wordBits : Variant → Nat
  | .a => 32
  | .b => 64

/-- A word of `W` bits. `+` on words is the spec's `+W`: addition modulo `2^W`, with no carry kept (R10). -/
abbrev Word (v : Variant) := BitVec v.wordBits

/-- Eight words of `W` bits, element `i` of the spec's `X[0..7]` in field `wi`: the shape of the hash state
`H` (R17), of the working register `REG` (R18) and of the initial state constants `IV` (R21). -/
structure Words8 (v : Variant) where
  w0 : Word v
  w1 : Word v
  w2 : Word v
  w3 : Word v
  w4 : Word v
  w5 : Word v
  w6 : Word v
  w7 : Word v
deriving DecidableEq, Repr

/-- The eight words in the order of their indices. -/
def Words8.toList {v : Variant} (x : Words8 v) : List (Word v) :=
  [x.w0, x.w1, x.w2, x.w3, x.w4, x.w5, x.w6, x.w7]

/-- The elementwise sum `X[i] +W Y[i]`: no carry passes from one word to the next (R90 step 5). -/
def Words8.add {v : Variant} (x y : Words8 v) : Words8 v :=
  ⟨x.w0 + y.w0, x.w1 + y.w1, x.w2 + y.w2, x.w3 + y.w3, x.w4 + y.w4, x.w5 + y.w5, x.w6 + y.w6, x.w7 + y.w7⟩

/-- All eight words zero: the value the model names for `REG` at reset (log 3). -/
def Words8.zero (v : Variant) : Words8 v :=
  ⟨0, 0, 0, 0, 0, 0, 0, 0⟩

end Sys2Proof
end

