-- ==== Sys2Proof/Syntax.lean ====
section
/-! DEFINITION. The commands: one constructor per row of spec/opcode_table.json (spec/30_encoding.md R51, R54). -/

namespace Sys2Proof

/-- A command. `RESET` and `FINISH` take no operand: the hardware ignores their `data` field (R55). -/
inductive Instr where
  /-- `RESET`, JCIPH's `reset()` (R67). -/
  | reset
  /-- `ABSORB b`, one byte of JCIPH's `digest(bytes)` (R68). -/
  | absorb (b : Byte)
  /-- `FINISH`, JCIPH's `finish()` (R69). -/
  | finish
deriving DecidableEq, Repr

end Sys2Proof
end

