-- ==== Sys2Proof/WellFormed.lean ====
section
/-! DEFINITION. Which commands, command words and command streams are admitted (spec/30_encoding.md R55, R56, R58;
spec/70_reset_and_hazards.md R130). -/

namespace Sys2Proof

/-- Every command is well formed: `ABSORB` takes any of the 256 byte values, which its operand's type already
says, and the other two take no operand (R55, R76). -/
def Instr.wellFormed : Instr → Bool
  | .reset => true
  | .absorb _ => true
  | .finish => true

/-- A command word is admitted unless it is one of the 256 reserved words `0x300` to `0x3FF` (R56, R58). -/
def admittedWord (w : BitVec 10) : Bool :=
  decide (w.toNat < 0x300)

/-- A command stream is admitted when it holds no reserved word (R58: "a model refuses a command stream that
holds one"; R130). -/
def admittedStream (ws : List (BitVec 10)) : Bool :=
  ws.all admittedWord

end Sys2Proof
end

