-- ==== Sys2Proof/Decode.lean ====
section
/-! DEFINITION. The command word: its two fields, the opcode rows, the decoder (total over the 1024 words, rejecting
the reserved ones by name) and the encoder (spec/30_encoding.md R53 to R58, R64; spec/opcode_table.json). -/

namespace Sys2Proof

/-- The field `op = cmd[9:8]` (R53). -/
def opField (w : BitVec 10) : BitVec 2 :=
  w.extractLsb' 8 2

/-- The field `data = cmd[7:0]` (R53). -/
def dataField (w : BitVec 10) : Byte :=
  w.extractLsb' 0 8

/-- A word laid out from its two fields (R53). -/
def commandWord (op : BitVec 2) (data : Byte) : BitVec 10 :=
  op ++ data

/-- Why a word is no command. -/
inductive DecodeError where
  /-- `op = 11`: reserved, no meaning (R58). -/
  | reservedOp (w : BitVec 10)
deriving DecidableEq, Repr

/-- The command a word stands for: `op` selects the operation, only `ABSORB` takes the operand, and `op = 11` is
reserved (R54, R55, R56). -/
def decode (w : BitVec 10) : Except DecodeError Instr :=
  match (opField w).toNat with
  | 0 => .ok .reset
  | 1 => .ok (.absorb (dataField w))
  | 2 => .ok .finish
  | _ => .error (.reservedOp w)

/-- The word a host sends for a command: the operand in `data`, and `0x00` there for a command without one
(R54, R55, R64). -/
def encode : Instr → BitVec 10
  | .reset => commandWord 0 0x00
  | .absorb b => commandWord 1 b
  | .finish => commandWord 2 0x00

/-- One row of the opcode table as match and mask over the 10-bit word (R54). -/
structure OpcodeRow where
  pattern : BitVec 10
  mask : BitVec 10
deriving DecidableEq, Repr

/-- A word belongs to a row when its masked bits are the row's pattern. -/
def OpcodeRow.covers (r : OpcodeRow) (w : BitVec 10) : Bool :=
  (w &&& r.mask) == r.pattern

/-- The row of each command (R54: "`RESET` is `match 0x000, mask 0x300`; `ABSORB` is `match 0x100, mask 0x300`;
`FINISH` is `match 0x200, mask 0x300`"). -/
def opcodeRow : Instr → OpcodeRow
  | .reset => ⟨0x000, 0x300⟩
  | .absorb _ => ⟨0x100, 0x300⟩
  | .finish => ⟨0x200, 0x300⟩

/-- The instruction the decoder reads from an instruction of `nbits` bits numbered as spec/opcode_table.json numbers
them. A command word has ten bits, so a number with a bit above bit 9 is no command word (log 13). -/
def decodeTableWord (_nbits w : Nat) : Option Instr :=
  if w < 1024 then (decode (BitVec.ofNat 10 w)).toOption else none

end Sys2Proof
end

