-- ==== Sys2Proof/Config.lean ====
section
/-! DEFINITION. The sizes of an instance as functions of its variant (spec/00_scope.md R7), the variant of the
instance that State.reset describes, and the one free value of the spec that a port shows. -/

namespace Sys2Proof

/-- `WB`, the word width in bytes (R7). -/
def Variant.wordBytes : Variant → Nat
  | .a => 4
  | .b => 8

/-- `BS`, the block size in bytes (R7). -/
def Variant.blockBytes : Variant → Nat
  | .a => 64
  | .b => 128

/-- `N`, the number of rounds and of schedule words (R7). -/
def Variant.rounds : Variant → Nat
  | .a => 64
  | .b => 80

/-- `LF`, the length field of the padding in bytes (R7). -/
def Variant.lengthFieldBytes : Variant → Nat
  | .a => 8
  | .b => 16

/-- `DB`, the digest size in bytes (R7). -/
def Variant.digestBytes : Variant → Nat
  | .a => 32
  | .b => 64

/-- `RMAX1`, the largest remainder that pads into one block (R7, R98). -/
def Variant.oneBlockMax : Variant → Nat
  | .a => 55
  | .b => 111

/-- `LENW`, the width of the total length counter in bits (R7, R24). -/
def Variant.lenBits : Variant → Nat
  | .a => 64
  | .b => 128

/-- `FW`, the width of the fill index in bits (R7, R23). -/
def Variant.fillBits : Variant → Nat
  | .a => 6
  | .b => 7

/-- The variant of the instance that `State.reset` describes. DESIGN CHOICE (log 1): the spec leaves V open
(D1); everything else in the model is for both variants. -/
def Config.resetVariant : Variant := .a

/-- What the port `rsp_data` carries while `rsp_valid` is 0: a free value, another one for each step (R62,
U5, log 11). -/
opaque Config.idleRspData (v : Variant) : Nat → BitVec (8 * v.digestBytes)

end Sys2Proof
end

