-- ==== Sys2Proof/Machine/Operands.lean ====
section
/-! DEFINITION. Bit and byte-order primitives: rotation and shift of words, and the big-endian conversions between byte
sequences and numbers (spec/00_scope.md R9 to R13; spec/20_memory.md R40, R41). -/

namespace Sys2Proof.Machine

/-- `ROTR_n(x)`, rotation right by `n`, for `0 < n < W` (R11). -/
def rotr {w : Nat} (n : Nat) (x : BitVec w) : BitVec w :=
  (x >>> n) ||| (x <<< (w - n))

/-- `SHR_n(x)`, logical shift right: zeros enter at the top (R11). -/
def shr {w : Nat} (n : Nat) (x : BitVec w) : BitVec w :=
  x >>> n

/-- `BE_n(x)`: the `n` bytes of `x`, the most significant first: byte `i` is bits `8(n-1-i)+7 .. 8(n-1-i)` (R13). -/
def toBE : Nat → Nat → List Byte
  | 0, _ => []
  | n + 1, x => BitVec.ofNat 8 (x >>> (8 * n)) :: toBE n x

/-- `FromBE(b)`: the number whose bytes are `b`, the first one the most significant (R13). -/
def fromBE (b : List Byte) : Nat :=
  b.foldl (fun acc x => acc * 256 + x.toNat) 0

/-- `Zeros(k)`: `k` bytes of value 0 (R12). -/
def zeros (k : Nat) : List Byte :=
  List.replicate k 0x00

end Sys2Proof.Machine
end

