-- ==== Sys2Proof/Machine/Facade.lean ====
section
/-! DEFINITION. The digest output: SERIALIZE and the packing of a digest on the response port (spec/45_facade_output.md
R104; spec/30_encoding.md R61). -/

namespace Sys2Proof.Machine

/-- `SERIALIZE(H)`: the words big-endian in state order, `DB` bytes (R104). -/
def serialize {v : Variant} (h : Words8 v) : List Byte :=
  h.toList.flatMap fun x => toBE v.wordBytes x.toNat

/-- A digest on the port: byte 0 is the most significant byte of `rsp_data` (R61). -/
def packDigest (v : Variant) (digest : List Byte) : BitVec (8 * v.digestBytes) :=
  BitVec.ofNat (8 * v.digestBytes) (fromBE digest)

end Sys2Proof.Machine
end

