-- ==== Sys2Proof/Machine/Constants.lean ====
section
/-! DEFINITION. The constant tables `IV` and `K` and the rotation and shift amounts of both variants
(spec/10_state.md R20, R21; spec/41_message_schedule.md R81, R82; spec/42_compression_32bit.md R85 to R87;
spec/43_compression_64bit.md R92 to R94). The values are the ones the spec prints. -/

namespace Sys2Proof.Machine

/-- The initial hash state of variant A (R85). -/
def ivA : Words8 .a :=
  ⟨0x6a09e667, 0xbb67ae85, 0x3c6ef372, 0xa54ff53a,
   0x510e527f, 0x9b05688c, 0x1f83d9ab, 0x5be0cd19⟩

/-- The initial hash state of variant B (R92). -/
def ivB : Words8 .b :=
  ⟨0x6a09e667f3bcc908, 0xbb67ae8584caa73b, 0x3c6ef372fe94f82b, 0xa54ff53a5f1d36f1,
   0x510e527fade682d1, 0x9b05688c2b3e6c1f, 0x1f83d9abfb41bd6b, 0x5be0cd19137e2179⟩

/-- `IV[0..7]`, the initial state constants of a variant (R21). -/
def initialHash : (v : Variant) → Words8 v
  | .a => ivA
  | .b => ivB

/-- The words of one line of a printed table of `w`-bit words, four to a line, from left to right (R86, R93). -/
def tableLine (w line : Nat) : List (BitVec w) :=
  [3, 2, 1, 0].map fun k => BitVec.ofNat w (line >>> (k * w))

/-- The table of R86 line by line: the line of `K[4j .. 4j+3]` of variant A is entry `j`. -/
def roundConstantLinesA : List Nat :=
  [0x428a2f98_71374491_b5c0fbcf_e9b5dba5,
   0x3956c25b_59f111f1_923f82a4_ab1c5ed5,
   0xd807aa98_12835b01_243185be_550c7dc3,
   0x72be5d74_80deb1fe_9bdc06a7_c19bf174,
   0xe49b69c1_efbe4786_0fc19dc6_240ca1cc,
   0x2de92c6f_4a7484aa_5cb0a9dc_76f988da,
   0x983e5152_a831c66d_b00327c8_bf597fc7,
   0xc6e00bf3_d5a79147_06ca6351_14292967,
   0x27b70a85_2e1b2138_4d2c6dfc_53380d13,
   0x650a7354_766a0abb_81c2c92e_92722c85,
   0xa2bfe8a1_a81a664b_c24b8b70_c76c51a3,
   0xd192e819_d6990624_f40e3585_106aa070,
   0x19a4c116_1e376c08_2748774c_34b0bcb5,
   0x391c0cb3_4ed8aa4a_5b9cca4f_682e6ff3,
   0x748f82ee_78a5636f_84c87814_8cc70208,
   0x90befffa_a4506ceb_bef9a3f7_c67178f2]

/-- The table of R93 line by line, its first ten lines: the line of `K[4j .. 4j+3]` of variant B is entry `j`. -/
def roundConstantLinesBFrom0 : List Nat :=
  [0x428a2f98d728ae22_7137449123ef65cd_b5c0fbcfec4d3b2f_e9b5dba58189dbbc,
   0x3956c25bf348b538_59f111f1b605d019_923f82a4af194f9b_ab1c5ed5da6d8118,
   0xd807aa98a3030242_12835b0145706fbe_243185be4ee4b28c_550c7dc3d5ffb4e2,
   0x72be5d74f27b896f_80deb1fe3b1696b1_9bdc06a725c71235_c19bf174cf692694,
   0xe49b69c19ef14ad2_efbe4786384f25e3_0fc19dc68b8cd5b5_240ca1cc77ac9c65,
   0x2de92c6f592b0275_4a7484aa6ea6e483_5cb0a9dcbd41fbd4_76f988da831153b5,
   0x983e5152ee66dfab_a831c66d2db43210_b00327c898fb213f_bf597fc7beef0ee4,
   0xc6e00bf33da88fc2_d5a79147930aa725_06ca6351e003826f_142929670a0e6e70,
   0x27b70a8546d22ffc_2e1b21385c26c926_4d2c6dfc5ac42aed_53380d139d95b3df,
   0x650a73548baf63de_766a0abb3c77b2a8_81c2c92e47edaee6_92722c851482353b]

/-- The table of R93 line by line, its last ten lines: the line of `K[40+4j .. 40+4j+3]` of variant B is entry `j`. -/
def roundConstantLinesBFrom40 : List Nat :=
  [0xa2bfe8a14cf10364_a81a664bbc423001_c24b8b70d0f89791_c76c51a30654be30,
   0xd192e819d6ef5218_d69906245565a910_f40e35855771202a_106aa07032bbd1b8,
   0x19a4c116b8d2d0c8_1e376c085141ab53_2748774cdf8eeb99_34b0bcb5e19b48a8,
   0x391c0cb3c5c95a63_4ed8aa4ae3418acb_5b9cca4f7763e373_682e6ff3d6b2b8a3,
   0x748f82ee5defb2fc_78a5636f43172f60_84c87814a1f0ab72_8cc702081a6439ec,
   0x90befffa23631e28_a4506cebde82bde9_bef9a3f7b2c67915_c67178f2e372532b,
   0xca273eceea26619c_d186b8c721c0c207_eada7dd6cde0eb1e_f57d4f7fee6ed178,
   0x06f067aa72176fba_0a637dc5a2c898a6_113f9804bef90dae_1b710b35131c471b,
   0x28db77f523047d84_32caab7b40c72493_3c9ebe0a15c9bebc_431d67c49c100d4c,
   0x4cc5d4becb3e42b6_597f299cfc657e2a_5fcb6fab3ad6faec_6c44198c4a475817]

/-- The printed table of round constants of a variant. -/
def roundConstantLines : Variant → List Nat
  | .a => roundConstantLinesA
  | .b => roundConstantLinesBFrom0 ++ roundConstantLinesBFrom40

/-- `K[0..N-1]`, the round constants of a variant: 64 words of 32 bits (R86) or 80 words of 64 bits (R93). -/
def roundConstants (v : Variant) : List (Word v) :=
  (roundConstantLines v).flatMap (tableLine v.wordBits)

/-- Three amounts, in bits, of one sigma function. -/
structure Amounts where
  first : Nat
  second : Nat
  third : Nat
deriving DecidableEq, Repr

/-- `sigma0`: two rotations and the shift in third place (R81, R82). -/
def smallSigma0Amounts : Variant → Amounts
  | .a => ⟨7, 18, 3⟩
  | .b => ⟨1, 8, 7⟩

/-- `sigma1`: two rotations and the shift in third place (R81, R82). -/
def smallSigma1Amounts : Variant → Amounts
  | .a => ⟨17, 19, 10⟩
  | .b => ⟨19, 61, 6⟩

/-- `Sigma0`: three rotations (R87, R94). -/
def bigSigma0Amounts : Variant → Amounts
  | .a => ⟨2, 13, 22⟩
  | .b => ⟨28, 34, 39⟩

/-- `Sigma1`: three rotations (R87, R94). -/
def bigSigma1Amounts : Variant → Amounts
  | .a => ⟨6, 11, 25⟩
  | .b => ⟨14, 18, 41⟩

end Sys2Proof.Machine
end

