-- ==== Sys2Proof/Machine/State.lean ====
section
/-! DEFINITION. The state of an instance and of its ports, the reasons a step stops, and the state right after reset
(spec/10_state.md R16 to R33; spec/30_encoding.md R52, R59 to R62; spec/70_reset_and_hazards.md R121). -/

namespace Sys2Proof.Machine

/-- The cells of the block buffer `BUF` as (offset, byte) pairs in one canonical form: offsets strictly rising, no entry
equal to what an unlisted offset reads as (R22, R34; Machine/Memory.lean). -/
abbrev Memory := List Host.Cell

/-- What the host drives on the input ports at one step (R52), and whether it asserts `rst` while the command accepted
at this step is still running (R129, log 9). -/
structure HostPins where
  /-- `rst`, hardware reset, active high (R121). -/
  rst : Bool
  /-- `cmd_valid` (R52). -/
  cmdValid : Bool
  /-- `cmd`, the command word (R53). -/
  cmd : BitVec 10
  /-- `rsp_ready`: the host takes the digest (R62). -/
  rspReady : Bool
  /-- `rst` is asserted at some edge while the command accepted at this step runs (R129). -/
  rstMidCommand : Bool
deriving DecidableEq, Repr

/-- A host that drives nothing (R124: it may hold `cmd_valid = 0` for any time). -/
def HostPins.idle : HostPins := ⟨false, false, 0, false, false⟩

/-- Command progress, which is all that `cmd_ready` and `rsp_valid` show (R27). -/
inductive Phase where
  /-- `rst` was 1 at the last edge: `cmd_ready = 0`, `rsp_valid = 0` (R121). -/
  | inReset
  /-- Between commands: `cmd_ready = 1`, `rsp_valid = 0` (R59). -/
  | ready
  /-- A `FINISH` waits for the host to take its digest: `cmd_ready = 0`, `rsp_valid = 1` (R62). -/
  | waiting (digest : List Byte)
deriving DecidableEq, Repr

/-- The state of one instance of variant `v` (R16). -/
structure Engine (v : Variant) where
  /-- `H[0..7]`, the hash state (R17). -/
  h : Words8 v
  /-- `BUF[0..BS-1]`, the block buffer (R22). -/
  buf : Memory
  /-- `FILL`, the number of pending bytes (R23). -/
  fill : BitVec v.fillBits
  /-- `LEN`, the total length counter, in bytes (R24). -/
  len : BitVec v.lenBits
  /-- `REG[0..7]`, the working register, scratch (R18). -/
  reg : Words8 v
  /-- `SCHED[0..N-1]`, the message schedule, scratch (R19). -/
  sched : Vector (Word v) v.rounds
  /-- Command progress (R27). -/
  phase : Phase
deriving DecidableEq, Repr

/-- An instance of either variant, its input ports, and the host around it. -/
structure State where
  /-- `V`, fixed while the instance exists (R6). -/
  variant : Variant
  /-- The instance (R16). -/
  engine : Engine variant
  /-- The input ports at the step being executed (R52). -/
  pins : HostPins
  /-- What the host drives at the coming steps, the next one first; the model's own field (log 8). -/
  script : List HostPins
  /-- The digests transferred so far, the oldest first: the observation of a run (R133); the model's own field (log 12). -/
  responses : List (List Byte)
  /-- The number of steps so far, which picks the free value of `rsp_data` while no response is valid; the model's own
  field (log 11). -/
  ticks : Nat
deriving DecidableEq, Repr

/-- No fault exists: the hardware raises no exception for any command, operand or state (R109), and no access can leave
the buffer (R35). -/
inductive Fault where
deriving DecidableEq, Repr

/-- Why a step has no next state. -/
inductive Refusal where
  /-- An instruction without a meaning in this model, raised by exec's arms only (none is left). Safe. -/
  | notModelled (mnemonic : String)
  /-- A reserved command word (`op = 11`) was accepted, raised by step: the spec gives it no meaning and asks a model to
  refuse it (R58, R130, U2). Safe. -/
  | reservedCommand (word : BitVec 10)
deriving DecidableEq, Repr

/-- What happens at the ports in one step (R59, R62, R113, R121, R129). -/
inductive PortEvent where
  /-- `rst = 1`: it wins over everything else (R113, R121). -/
  | hardwareReset
  /-- The first edge with `rst = 0` after a reset: `cmd_ready` becomes 1 (R121). -/
  | releaseReset
  /-- `rsp_valid = rsp_ready = 1`: the response is transferred (R62). -/
  | transfer
  /-- A response waits and the host does not take it (R62, U9). -/
  | hold
  /-- `cmd_ready = 1` and no command is offered (R120, R124). -/
  | idle
  /-- `cmd_valid = cmd_ready = 1`: the command word is accepted (R59). -/
  | accept (word : BitVec 10)
  /-- The command word is accepted, and `rst` abandons the command while it runs (R129). -/
  | abandon (word : BitVec 10)
deriving DecidableEq, Repr

/-- An instance right after hardware reset, between commands, in the initial state of R31. `BUF`, `REG` and `SCHED` are
unspecified there: nothing is listed in `BUF` (log 2), the scratch words are zero (log 3). -/
def Engine.initial (v : Variant) : Engine v where
  h := initialHash v
  buf := []
  fill := 0
  len := 0
  reg := Words8.zero v
  sched := Vector.replicate v.rounds 0
  phase := .ready

/-- The state right after reset of an instance of variant `v`, with a host that drives nothing (R31, R121; logs 8, 11,
12). -/
def State.resetOf (v : Variant) : State where
  variant := v
  engine := Engine.initial v
  pins := HostPins.idle
  script := []
  responses := []
  ticks := 0

/-- The state right after reset (log 1 names the variant). -/
def State.reset : State := State.resetOf Config.resetVariant

end Sys2Proof.Machine
end

