-- ==== Sys2Proof/Machine/Flags.lean ====
section
/-! DEFINITION. The hardware has no flags (spec/10_state.md R27): the only status it shows is its output ports, functions
of command progress (spec/30_encoding.md R52, R59, R61, R62). -/

namespace Sys2Proof.Machine

/-- `cmd_ready`: 1 exactly between commands and out of reset (R59). -/
def Phase.cmdReady : Phase → Bool
  | .inReset => false
  | .ready => true
  | .waiting _ => false

/-- `rsp_valid`: 1 exactly while a digest is presented (R62). -/
def Phase.rspValid : Phase → Bool
  | .inReset => false
  | .ready => false
  | .waiting _ => true

/-- `rsp_data`: the waiting digest (R61), and a free value while none waits (R62, U5, log 11). -/
def rspData (v : Variant) (p : Phase) (ticks : Nat) : BitVec (8 * v.digestBytes) :=
  match p with
  | .inReset => Config.idleRspData v ticks
  | .ready => Config.idleRspData v ticks
  | .waiting digest => packDigest v digest

/-- The port `cmd_ready` of a state. -/
def State.cmdReady (s : State) : Bool := s.engine.phase.cmdReady

/-- The port `rsp_valid` of a state. -/
def State.rspValid (s : State) : Bool := s.engine.phase.rspValid

/-- The port `rsp_data` of a state. -/
def State.rspData (s : State) : BitVec (8 * s.variant.digestBytes) :=
  Sys2Proof.Machine.rspData s.variant s.engine.phase s.ticks

end Sys2Proof.Machine
end

