-- ==== Sys2Proof/Machine/Memory.lean ====
section
/-! DEFINITION. The block buffer as memory: reading and writing cells, the primitives MemRead and MemWrite, and the
canonical form (spec/20_memory.md R34 to R37). -/

namespace Sys2Proof.Machine

/-- What an unlisted cell reads as. DESIGN CHOICE 0x00 (log 2): the spec leaves it open and says no result may depend
on it (R31, R32). -/
def Memory.blank : Byte := 0x00

/-- The byte in the cell at an offset (R35). -/
def Memory.read : Memory → Nat → Byte
  | [], _ => Memory.blank
  | (k, x) :: m, off => if off = k then x else Memory.read m off

/-- An entry put in front of cells that all lie above it, or dropped when it is what an unlisted cell reads as. -/
def Memory.cons (off : Nat) (x : Byte) (m : Memory) : Memory :=
  if x = Memory.blank then m else (off, x) :: m

/-- The store of one byte (R35), keeping the canonical form. -/
def Memory.write : Memory → Nat → Byte → Memory
  | [], off, x => Memory.cons off x []
  | (k, y) :: m, off, x =>
    if off < k then Memory.cons off x ((k, y) :: m)
    else if off = k then Memory.cons off x m
    else (k, y) :: Memory.write m off x

/-- `MemRead(off, n)`: the `n` bytes from offset `off` on (R35). -/
def Memory.memRead (m : Memory) (off : Nat) : Nat → List Byte
  | 0 => []
  | n + 1 => m.read off :: Memory.memRead m (off + 1) n

/-- `MemWrite(off, n, b)`: the store of a byte sequence from offset `off` on (R35). -/
def Memory.memWrite (m : Memory) (off : Nat) : List Byte → Memory
  | [] => m
  | x :: b => Memory.memWrite (m.write off x) (off + 1) b

/-- The canonical form from a least offset on: offsets strictly rising and below `limit`, no entry equal to what an
unlisted cell reads as. -/
def Memory.wfFrom (limit : Nat) : Nat → Memory → Bool
  | _, [] => true
  | low, (k, x) :: m => decide (low ≤ k) && decide (k < limit) && x != Memory.blank && Memory.wfFrom limit (k + 1) m

/-- The buffer of a `limit`-byte block is in canonical form and lists only offsets `0 .. limit - 1` (R34). -/
def Memory.wf (limit : Nat) (m : Memory) : Bool :=
  Memory.wfFrom limit 0 m

end Sys2Proof.Machine
end

