-- ==== Sys2Proof/Machine/Schedule.lean ====
section
/-! DEFINITION. The message-schedule expander: sigma0, sigma1, PARSE, EXPAND (spec/41_message_schedule.md R79 to R84). -/

namespace Sys2Proof.Machine

/-- Two rotations and a shift, combined by XOR: the form of both small sigmas (R81, R82). -/
def smallSigma (n : Amounts) {w : Nat} (x : BitVec w) : BitVec w :=
  rotr n.first x ^^^ rotr n.second x ^^^ shr n.third x

/-- `sigma0` of the variant (R81, R82). -/
def sigma0 {v : Variant} (x : Word v) : Word v :=
  smallSigma (smallSigma0Amounts v) x

/-- `sigma1` of the variant (R81, R82). -/
def sigma1 {v : Variant} (x : Word v) : Word v :=
  smallSigma (smallSigma1Amounts v) x

/-- Word `i` of a block: its `WB` bytes from offset `WB * i` on, big-endian (R41, R80). -/
def blockWord (v : Variant) (block : List Byte) (i : Nat) : Word v :=
  BitVec.ofNat v.wordBits (fromBE ((block.drop (v.wordBytes * i)).take v.wordBytes))

/-- `PARSE(block)`: `SCHED[0..15]`, the sixteen words of the block in order (R80). -/
def parse (v : Variant) (block : List Byte) : List (Word v) :=
  (List.range 16).map (blockWord v block)

/-- The next schedule word from the earlier ones, the latest first: element `k` of the list is `SCHED[t-1-k]` (R83). -/
def nextWord {v : Variant} (earlier : List (Word v)) : Word v :=
  sigma1 (earlier.getD 1 0) + earlier.getD 6 0 + sigma0 (earlier.getD 14 0) + earlier.getD 15 0

/-- `EXPAND` for a number of further words, `t` ascending, on the schedule written so far, the latest word first (R83). -/
def expand {v : Variant} : Nat → List (Word v) → List (Word v)
  | 0, earlier => earlier
  | k + 1, earlier => expand k (nextWord earlier :: earlier)

/-- `SCHED[0..N-1]` of a block: PARSE, then EXPAND, before the rounds (R79, R84). -/
def schedule (v : Variant) (block : List Byte) : List (Word v) :=
  (expand (v.rounds - 16) (parse v block).reverse).reverse

end Sys2Proof.Machine
end

