-- ==== Sys2Proof/Machine/Compression.lean ====
section
/-! DEFINITION. The compression rounds of both variants: Sigma0, Sigma1, Ch, Maj, ROUND, COMPRESS
(spec/42_compression_32bit.md R87 to R91; spec/43_compression_64bit.md R94 to R96). -/

namespace Sys2Proof.Machine

/-- Three rotations combined by XOR: the form of both capital sigmas (R87, R94). -/
def bigSigma (n : Amounts) {w : Nat} (x : BitVec w) : BitVec w :=
  rotr n.first x ^^^ rotr n.second x ^^^ rotr n.third x

/-- `Sigma0` of the variant (R87, R94). -/
def Sigma0 {v : Variant} (x : Word v) : Word v :=
  bigSigma (bigSigma0Amounts v) x

/-- `Sigma1` of the variant (R87, R94). -/
def Sigma1 {v : Variant} (x : Word v) : Word v :=
  bigSigma (bigSigma1Amounts v) x

/-- `Ch(x, y, z)`: each bit is `y`'s where `x` has a 1 and `z`'s where it has a 0 (R88). -/
def Ch {w : Nat} (x y z : BitVec w) : BitVec w :=
  (x &&& y) ^^^ (~~~x &&& z)

/-- `Maj(x, y, z)`: each bit is the value at least two of the three have (R88). -/
def Maj {w : Nat} (x y z : BitVec w) : BitVec w :=
  (x &&& y) ^^^ (x &&& z) ^^^ (y &&& z)

/-- `T1` of a round with round constant `k` and schedule word `s` (R89, R95). -/
def roundT1 {v : Variant} (k s : Word v) (r : Words8 v) : Word v :=
  r.w7 + Sigma1 r.w4 + Ch r.w4 r.w5 r.w6 + k + s

/-- `T2` of a round (R89, R95). -/
def roundT2 {v : Variant} (r : Words8 v) : Word v :=
  Sigma0 r.w0 + Maj r.w0 r.w1 r.w2

/-- `ROUND(t)` with `k = K[t]` and `s = SCHED[t]`: the simultaneous assignment of R89 and R95, position 4 taking the old
`REG[3]` plus `T1` (90_conflicts.md C4). -/
def round {v : Variant} (k s : Word v) (r : Words8 v) : Words8 v :=
  ⟨roundT1 k s r + roundT2 r, r.w0, r.w1, r.w2, r.w3 + roundT1 k s r, r.w4, r.w5, r.w6⟩

/-- The rounds in ascending `t`: round `t` takes entry `t` of the constants and of the schedule (R90, R96 step 4). -/
def rounds {v : Variant} : List (Word v) → List (Word v) → Words8 v → Words8 v
  | k :: ks, s :: ss, r => rounds ks ss (round k s r)
  | _, _, r => r

/-- `REG` after the `N` rounds over a block, started from the hash state `h` (R90, R96 steps 1 to 4). -/
def roundsOf {v : Variant} (h : Words8 v) (block : List Byte) : Words8 v :=
  rounds (roundConstants v) (schedule v block) h

/-- `COMPRESS` as the pure function `(H, block) -> H'` (R91): step 5 adds the working register into the state. -/
def compressHash {v : Variant} (h : Words8 v) (block : List Byte) : Words8 v :=
  h.add (roundsOf h block)

/-- `COMPRESS(block)` on an instance: it writes `H`, and `REG` and `SCHED` as scratch, and nothing else (R66, R90, R96). -/
def compress {v : Variant} (m : Engine v) (block : List Byte) : Engine v :=
  { m with
    h := compressHash m.h block
    reg := roundsOf m.h block
    sched := Vector.ofFn fun t => (schedule v block).getD t.val 0 }

/-- `COMPRESS` on each block in order. -/
def compressAll {v : Variant} (m : Engine v) (blocks : List (List Byte)) : Engine v :=
  blocks.foldl compress m

end Sys2Proof.Machine
end

