-- ==== Sys2Proof/Machine/Padder.lean ====
section
/-! DEFINITION. The Merkle-Damgard padder (spec/44_padder.md R97 to R103). -/

namespace Sys2Proof.Machine

/-- `nblk`, the number of padded blocks for a remainder of `r` bytes (R98). -/
def padBlockCount (v : Variant) (r : Nat) : Nat :=
  if r ≤ v.oneBlockMax then 1 else 2

/-- `z`, the number of zero bytes of the padding (R97, R100). -/
def padZeroCount (v : Variant) (r : Nat) : Nat :=
  padBlockCount v r * v.blockBytes - r - 1 - v.lengthFieldBytes

/-- `bits`, the message length in bits, modulo the length field's width (R101). -/
def bitLength (v : Variant) (total : Nat) : Nat :=
  (total * 8) % 2 ^ (8 * v.lengthFieldBytes)

/-- The padded message: remainder, `0x80`, zeros, length field (R97, R100). -/
def paddedMessage (v : Variant) (rem : List Byte) (total : Nat) : List Byte :=
  rem ++ [0x80] ++ zeros (padZeroCount v rem.length) ++ toBE v.lengthFieldBytes (bitLength v total)

/-- The one or two blocks that `PAD` compresses, in order (R97, R99). -/
def padBlocks (v : Variant) (rem : List Byte) (total : Nat) : List (List Byte) :=
  if padBlockCount v rem.length = 1 then [(paddedMessage v rem total).take v.blockBytes]
  else [(paddedMessage v rem total).take v.blockBytes,
        ((paddedMessage v rem total).drop v.blockBytes).take v.blockBytes]

/-- `PAD(rem, total)`: it changes an instance through `COMPRESS` only; the padded message is built outside `BUF` (R97,
R102, log 5). -/
def pad {v : Variant} (m : Engine v) (rem : List Byte) (total : BitVec v.lenBits) : Engine v :=
  compressAll m (padBlocks v rem total.toNat)

end Sys2Proof.Machine
end

