-- ==== Sys2Proof/Machine/Ops.lean ====
section
/-! DEFINITION. The named operations the commands and the step share: the initial state, the byte store, the block
completion, the end of a message, the response transfer, hardware reset, and what happens at the ports in one step.
There is no exception to take and none to return from (spec/60_exceptions.md R109, R111, R112). -/

namespace Sys2Proof.Machine

/-- A state with another instance state of the same variant. -/
def State.withEngine (s : State) (m : Engine s.variant) : State :=
  { s with engine := m }

/-- The initial state: `H <- IV`, `FILL <- 0`, `LEN <- 0`; `BUF`, `REG` and `SCHED` are left as they are (R31, R67). -/
def Engine.initialise {v : Variant} (m : Engine v) : Engine v :=
  { m with h := initialHash v, fill := 0, len := 0 }

/-- `MemWrite(FILL, 1, [b])` (R68). -/
def Engine.storeByte {v : Variant} (m : Engine v) (b : Byte) : Engine v :=
  { m with buf := m.buf.memWrite m.fill.toNat [b] }

/-- The pending bytes `BUF[0 .. FILL)`, `MemRead(0, FILL)` (R33, R69). -/
def Engine.pending {v : Variant} (m : Engine v) : List Byte :=
  m.buf.memRead 0 m.fill.toNat

/-- The next byte completes the block (R68, R75). -/
def Engine.lastByte {v : Variant} (m : Engine v) : Bool :=
  m.fill.toNat == v.blockBytes - 1

/-- The full buffer is compressed and emptied, and the length counter grows by a block (R68). -/
def Engine.completeBlock {v : Variant} (m : Engine v) : Engine v :=
  let c := compress m (m.buf.memRead 0 v.blockBytes)
  { c with fill := 0, len := c.len + BitVec.ofNat v.lenBits v.blockBytes }

/-- One byte appended to the pending input (R68). -/
def Engine.absorbByte {v : Variant} (m : Engine v) (b : Byte) : Engine v :=
  if m.lastByte then (m.storeByte b).completeBlock
  else { m.storeByte b with fill := m.fill + 1 }

/-- `LEN <- (LEN + FILL) mod 2^LENW`: the total byte count of the message (R69). -/
def Engine.totalLength {v : Variant} (m : Engine v) : BitVec v.lenBits :=
  m.len + BitVec.ofNat v.lenBits m.fill.toNat

/-- `FINISH` up to its response: the length, `PAD`, and the digest presented (R69, R62). -/
def Engine.finishMessage {v : Variant} (m : Engine v) : Engine v :=
  let p := pad { m with len := m.totalLength } m.pending m.totalLength
  { p with phase := .waiting (serialize p.h) }

/-- The response transfer: the digest goes to the host, `rsp_valid` drops, the reset that ends `FINISH` is performed and
`cmd_ready` rises (R62, R69). Without a waiting response nothing is transferred. -/
def State.takeResponse (s : State) : State :=
  match s.engine.phase with
  | .inReset => s
  | .ready => s
  | .waiting digest =>
    { s with
      engine := { s.engine.initialise with phase := .ready }
      responses := s.responses ++ [digest] }

/-- Hardware reset: the initial state, `cmd_ready = 0`, `rsp_valid = 0`; a command in progress is abandoned and a waiting
response withdrawn (R121, R129). -/
def State.hardwareReset (s : State) : State :=
  { s with engine := { s.engine.initialise with phase := .inReset } }

/-- Out of reset: `cmd_ready` becomes 1 (R121). -/
def State.releaseReset (s : State) : State :=
  { s with engine := { s.engine with phase := .ready } }

/-- The next step begins: the host's next pin values are on the ports; a host with an empty script drives nothing
(log 8). -/
def State.sample (s : State) : State :=
  { s with pins := s.script.headD HostPins.idle, script := s.script.tail, ticks := s.ticks + 1 }

/-- What happens at the ports with the pins as they are: `rst` wins (R113); out of reset `cmd_ready` rises (R121); a
waiting response is transferred or held, whatever is offered on `cmd` (R62); else an offered word is accepted (R59). -/
def portEvent (p : HostPins) (ph : Phase) : PortEvent :=
  if p.rst then .hardwareReset
  else match ph with
    | .inReset => .releaseReset
    | .waiting _ => if p.rspReady then .transfer else .hold
    | .ready =>
      if p.cmdValid then (if p.rstMidCommand then .abandon p.cmd else .accept p.cmd) else .idle

end Sys2Proof.Machine
end

