-- ==== Sys2Proof/Machine/Stream.lean ====
section
/-! DEFINITION. The meanings of the three commands (spec/40_streaming_buffer.md R67, R68, R69). -/

namespace Sys2Proof.Machine

/-- `RESET` (R67): the initial state; no response, no `COMPRESS`. -/
def execReset (s : State) : Host.Outcome State Fault Refusal :=
  .next (s.withEngine s.engine.initialise)

/-- `ABSORB b` (R68): one byte appended, and the block compressed when it is the last one; no response. -/
def execAbsorb (b : Byte) (s : State) : Host.Outcome State Fault Refusal :=
  .next (s.withEngine (s.engine.absorbByte b))

/-- `FINISH` (R69): the digest is presented; when the host holds `rsp_ready` it is transferred and the instance reset in
the same step, else the response waits (R62, log 6). -/
def execFinish (s : State) : Host.Outcome State Fault Refusal :=
  let w := s.withEngine s.engine.finishMessage
  .next (if s.pins.rspReady then w.takeResponse else w)

end Sys2Proof.Machine
end

