-- ==== Sys2Proof/Machine/Dispatch.lean ====
section
/-! DEFINITION. One arm per command: which meaning executes it. -/

namespace Sys2Proof.Machine

def exec (i : Instr) (s : State) : Host.Outcome State Fault Refusal :=
  match i with
  | .reset => Sys2Proof.Machine.execReset s
  | .absorb b => Sys2Proof.Machine.execAbsorb b s
  | .finish => Sys2Proof.Machine.execFinish s

end Sys2Proof.Machine
end

