-- ==== Sys2Proof/Machine/Ports.lean ====
section
/-! DEFINITION. What a port event does: a command accepted, a command abandoned, a reset, a response transferred
(spec/30_encoding.md R56, R58 to R62; spec/70_reset_and_hazards.md R121, R129). -/

namespace Sys2Proof.Machine

/-- The command word accepted at the ports is decoded and executed; a reserved one is refused (R56, R58). -/
def acceptCommand (w : BitVec 10) (s : State) : Host.Outcome State Fault Refusal :=
  match decode w with
  | .ok i => exec i s
  | .error (.reservedOp r) => .refused (.reservedCommand r)

/-- The command word is accepted and `rst` abandons the command before it completes (R129, log 9). -/
def abandonCommand (w : BitVec 10) (s : State) : Host.Outcome State Fault Refusal :=
  match decode w with
  | .ok _ => .next s.hardwareReset
  | .error (.reservedOp r) => .refused (.reservedCommand r)

/-- What a port event does to a state whose pins are sampled. -/
def runEvent (e : PortEvent) (s : State) : Host.Outcome State Fault Refusal :=
  match e with
  | .hardwareReset => .next s.hardwareReset
  | .releaseReset => .next s.releaseReset
  | .transfer => .next s.takeResponse
  | .hold => .next s
  | .idle => .next s
  | .accept w => acceptCommand w s
  | .abandon w => abandonCommand w s

end Sys2Proof.Machine
end

