-- ==== Sys2Proof/Machine/Step.lean ====
section
/-! DEFINITION. One step: the host's next pin values are sampled and the port event they make is carried out; a command
runs to completion in its step (spec/30_encoding.md R59, R60, R62; spec/60_exceptions.md R113; log 6). -/

namespace Sys2Proof.Machine

/-- One step of the machine. -/
def step (s : State) : Host.Outcome State Fault Refusal :=
  runEvent (portEvent s.sample.pins s.sample.engine.phase) s.sample

/-- The state `s` in which the very next step accepts and runs the command word `w`: the instance is between commands,
and the host's next pin values offer `w` and hold `rsp_ready`, so that `FINISH` completes in that step (logs 8, 13). -/
def State.withFetchWord (s : State) (_nbits w : Nat) : State :=
  { s with
    engine := { s.engine with phase := .ready }
    script := ⟨false, true, BitVec.ofNat 10 w, true, false⟩ :: s.script }

end Sys2Proof.Machine
end

