-- ==== Sys2Proof/Machine/Composite.lean ====
section
/-! DEFINITION. The composite operations NEW, DIGEST and HASH, which expand to commands and have no encoding of their own
(spec/30_encoding.md R65; spec/40_streaming_buffer.md R70 to R72), and a host that sends a command sequence. -/

namespace Sys2Proof.Machine

/-- `NEW`: hardware reset, then out of reset (R65, R70). -/
def newInstance (s : State) : State :=
  s.hardwareReset.releaseReset

/-- `DIGEST m`: one `ABSORB` per byte, in order, and nothing at all for the empty message (R65, R71). -/
def digestCommands (msg : List Byte) : List Instr :=
  msg.map Instr.absorb

/-- `HASH m`: `RESET`, `DIGEST m`, `FINISH` (R65, R72). -/
def hashCommands (msg : List Byte) : List Instr :=
  .reset :: (digestCommands msg ++ [.finish])

/-- The commands executed one after the other, each completely, in order (R45, R60). -/
def runCommands : List Instr → State → Host.Outcome State Fault Refusal
  | [], s => .next s
  | i :: rest, s =>
    match exec i s with
    | .next t => runCommands rest t
    | .fault f => .fault f
    | .refused r => .refused r

/-- The pins of a host that offers a command and takes any response at once (R59, R62). -/
def offer (i : Instr) : HostPins :=
  ⟨false, true, encode i, true, false⟩

/-- A host that sends a command sequence, one command a step. -/
def offerAll (is : List Instr) : List HostPins :=
  is.map offer

end Sys2Proof.Machine
end

