-- ==== Sys2Proof/Safety.lean ====
section
/-! DEFINITION. The terms that claims use: the well-formed states, the abstract view of an instance, the message an
instance has absorbed, the digest of a whole message, and the hosts that keep their duty (spec/10_state.md R25, R33;
spec/40_streaming_buffer.md R71 to R78; spec/45_facade_output.md R105 to R107; spec/70_reset_and_hazards.md R124, R130). -/

namespace Sys2Proof.Machine

/-- A waiting digest has `DB` bytes (R105). -/
def Phase.wf (v : Variant) : Phase → Bool
  | .inReset => true
  | .ready => true
  | .waiting digest => digest.length == v.digestBytes

/-- An instance state is well formed: its buffer is in canonical form within the block, a waiting digest has `DB` bytes. -/
def Engine.wf {v : Variant} (m : Engine v) : Bool :=
  Memory.wf v.blockBytes m.buf && m.phase.wf v

/-- A state is well formed: its instance is, and every digest transferred so far has `DB` bytes. -/
def State.wf (s : State) : Bool :=
  s.engine.wf && s.responses.all fun d => d.length == s.variant.digestBytes

/-- The abstract state of R33: hash state, pending bytes, and the number of bytes absorbed since the last reset modulo
`2^LENW`; and command progress, which the ports show. -/
structure View (v : Variant) where
  h : Words8 v
  pending : List Byte
  total : BitVec v.lenBits
  phase : Phase
deriving DecidableEq, Repr

/-- The abstract state of an instance: nothing of `BUF` at or above `FILL`, nothing of `REG` and `SCHED` (R33). -/
def Engine.view {v : Variant} (m : Engine v) : View v :=
  ⟨m.h, m.pending, m.totalLength, m.phase⟩

/-- The complete blocks at the start of a byte sequence, in order. -/
def completeBlocks (v : Variant) (msg : List Byte) : List (List Byte) :=
  (List.range (msg.length / v.blockBytes)).map fun j => (msg.drop (v.blockBytes * j)).take v.blockBytes

/-- The bytes after the last complete block. -/
def remainder (v : Variant) (msg : List Byte) : List Byte :=
  msg.drop (v.blockBytes * (msg.length / v.blockBytes))

/-- The hash state after a sequence of blocks. -/
def foldBlocks {v : Variant} (h : Words8 v) (blocks : List (List Byte)) : Words8 v :=
  blocks.foldl compressHash h

/-- The instance is between commands and has absorbed exactly `msg` since the last reset: the invariants I1 to I5 of
R25 in one. -/
structure Engine.Absorbed {v : Variant} (m : Engine v) (msg : List Byte) : Prop where
  ready : m.phase = .ready
  canonical : Memory.wf v.blockBytes m.buf = true
  hash : m.h = foldBlocks (initialHash v) (completeBlocks v msg)
  fill : m.fill.toNat = msg.length % v.blockBytes
  pending : m.pending = remainder v msg
  len : m.len = BitVec.ofNat v.lenBits (v.blockBytes * (msg.length / v.blockBytes))

/-- A whole message padded at once: the message, `0x80`, the fewest zero bytes that make whole blocks, and the
big-endian bit length (Glossary; R97, R101). -/
def paddedWhole (v : Variant) (msg : List Byte) : List Byte :=
  msg ++ [0x80]
    ++ zeros ((v.blockBytes - (msg.length + 1 + v.lengthFieldBytes) % v.blockBytes) % v.blockBytes)
    ++ toBE v.lengthFieldBytes (msg.length * 8 % 2 ^ (8 * v.lengthFieldBytes))

/-- The digest of a whole message, with no streaming: pad, compress every block in order from `IV`, serialise (R72, R106,
R107). -/
def messageDigest (v : Variant) (msg : List Byte) : List Byte :=
  serialize (foldBlocks (initialHash v) (completeBlocks v (paddedWhole v msg)))

/-- The first 80 primes, 2 to 409, by trial division: the primes of the definitions in R85, R86, R92 and R93. -/
def firstPrimes : List Nat :=
  (List.range 410).filter fun n => 2 ≤ n && (List.range n).all fun d => d < 2 || n % d != 0

/-- `x` is the first `w` bits of the fractional part of the `k`-th root of `p`, whose integer part is `n` (R85, R86, R92,
R93). -/
def isRootFraction (w k p n x : Nat) : Bool :=
  x < 2 ^ w && (n * 2 ^ w + x) ^ k ≤ p * 2 ^ (k * w) && p * 2 ^ (k * w) < (n * 2 ^ w + x + 1) ^ k

/-- The host keeps its duty never to offer a reserved word (R124, R130). -/
def State.admitted (s : State) : Bool :=
  s.script.all fun p => !p.cmdValid || admittedWord p.cmd

end Sys2Proof.Machine
end

