-- ==== Sys2Proof/Certificates/Slice0/Obligations.lean ====
section
/-! DEFINITION. The statements about the model, in the order of OBLIGATIONS.json: sizes and constants, encoding, word
functions, schedule, rounds, padding, digest, the buffer, the three commands, the ports, invariants, and the whole-message
results. Every statement is for both variants unless it names one. -/

open Sys2Proof Sys2Proof.Machine

/-- R7: every size of the hardware, for each variant. -/
def Obligations.SizesOfTheVariants : Prop :=
  (Variant.a.wordBits = 32 ∧ Variant.b.wordBits = 64) ∧
  (Variant.a.blockBytes = 64 ∧ Variant.b.blockBytes = 128) ∧
  (Variant.a.rounds = 64 ∧ Variant.b.rounds = 80) ∧
  (Variant.a.lengthFieldBytes = 8 ∧ Variant.b.lengthFieldBytes = 16) ∧
  (Variant.a.digestBytes = 32 ∧ Variant.b.digestBytes = 64) ∧
  (Variant.a.oneBlockMax = 55 ∧ Variant.b.oneBlockMax = 111) ∧
  (Variant.a.lenBits = 64 ∧ Variant.b.lenBits = 128) ∧
  (Variant.a.fillBits = 6 ∧ Variant.b.fillBits = 7) ∧
  ∀ v : Variant,
    v.wordBytes * 8 = v.wordBits ∧ v.blockBytes / v.wordBytes = 16 ∧ v.digestBytes = 8 * v.wordBytes ∧
    v.oneBlockMax + 1 + v.lengthFieldBytes = v.blockBytes ∧ 2 ^ v.fillBits = v.blockBytes ∧
    (roundConstants v).length = v.rounds ∧ (initialHash v).toList.length = 8

/-- R85, R86, R92, R93: `IV` is the fractional parts of the square roots of the first eight primes, `K` those of the cube
roots of the first 64 or 80. The integer parts are found among 0..20 for square roots and 0..7 for cube roots. -/
def Obligations.ConstantTablesAreRootFractions : Prop :=
  firstPrimes.length = 80 ∧
  (∀ v : Variant, ∀ i, i < 8 →
    ∃ n, n ≤ 20 ∧
      isRootFraction v.wordBits 2 (firstPrimes.getD i 0) n (((initialHash v).toList.map BitVec.toNat).getD i 0) = true) ∧
  (∀ v : Variant, ∀ t, t < v.rounds →
    ∃ n, n ≤ 7 ∧
      isRootFraction v.wordBits 3 (firstPrimes.getD t 0) n (((roundConstants v).map BitVec.toNat).getD t 0) = true)

/-- V15 of spec/95_test_vectors.md: words written out bit by bit from R53 and R54, and what they stand for. -/
def Obligations.SpecWordsDecodeToTheirCommands : Prop :=
  decode 0b0000000000 = .ok .reset ∧ decode 0b0011111111 = .ok .reset ∧
  decode 0b0100000000 = .ok (.absorb 0x00) ∧ decode 0b0101100001 = .ok (.absorb 0x61) ∧
  decode 0b0110000000 = .ok (.absorb 0x80) ∧ decode 0b0111111111 = .ok (.absorb 0xff) ∧
  decode 0b1000000000 = .ok .finish ∧ decode 0b1010100101 = .ok .finish ∧
  decode 0b1100000000 = .error (.reservedOp 0x300) ∧ decode 0b1111111111 = .error (.reservedOp 0x3ff)

/-- R53, R55: a word is `op` in bits 9:8 and `data` in bits 7:0; `op` alone selects the operation; `ABSORB` takes all 256
values of `data` as they are, `RESET` and `FINISH` ignore it, and a host sends `0x00` there. -/
def Obligations.OpSelectsTheCommandAndDataIsTheByte : Prop :=
  (∀ w : BitVec 10, commandWord (opField w) (dataField w) = w ∧
    (opField w).toNat = w.toNat / 2 ^ 8 ∧ (dataField w).toNat = w.toNat % 2 ^ 8) ∧
  (∀ data : Byte,
    decode (commandWord 0b00 data) = .ok .reset ∧ decode (commandWord 0b01 data) = .ok (.absorb data) ∧
    decode (commandWord 0b10 data) = .ok .finish ∧
    decode (commandWord 0b11 data) = .error (.reservedOp (commandWord 0b11 data)) ∧
    encode (.absorb data) = commandWord 0b01 data) ∧
  encode .reset = commandWord 0b00 0x00 ∧ encode .finish = commandWord 0b10 0x00

/-- R54, R56, R58: decoding an encoded command gives it back; a word decodes to a command exactly when it lies in that
command's opcode row; no word lies in two rows; and the words that decode to nothing are `0x300` to `0x3FF`. -/
def Obligations.DecodeAndEncodeAgree : Prop :=
  (∀ i : Instr, i.wellFormed = true → decode (encode i) = .ok i ∧ admittedWord (encode i) = true) ∧
  (∀ (w : BitVec 10) (i : Instr), decode w = .ok i →
    (opcodeRow i).covers w = true ∧ (∀ b, i = .absorb b → w = encode i)) ∧
  (∀ (w : BitVec 10) (i j : Instr), (opcodeRow i).covers w = true → (opcodeRow j).covers w = true →
    opcodeRow i = opcodeRow j) ∧
  (∀ w : BitVec 10, (∃ e, decode w = .error e) ↔ 0x300 ≤ w.toNat) ∧
  (∀ w : BitVec 10, admittedWord w = true ↔ ∃ i, decode w = .ok i)

/-- R11: the bitwise primitives, bit by bit and as numbers, for every amount `0 < n < W`; and every rotation and shift amount
of both variants lies in that range. -/
def Obligations.BitwisePrimitives : Prop :=
  (∀ (w n : Nat) (x : BitVec w), 0 < n → n < w →
    (∀ i, i < w → (rotr n x).getLsbD i = x.getLsbD ((i + n) % w)) ∧
    (rotr n x).toNat = (x.toNat / 2 ^ n) ||| (x.toNat * 2 ^ (w - n) % 2 ^ w) ∧
    (shr n x).toNat = x.toNat / 2 ^ n) ∧
  (∀ (w : Nat) (x y : BitVec w),
    (~~~x).toNat = 2 ^ w - 1 - x.toNat ∧
    ∀ i, i < w →
      (x &&& y).getLsbD i = (x.getLsbD i && y.getLsbD i) ∧ (x ||| y).getLsbD i = (x.getLsbD i || y.getLsbD i) ∧
      (x ^^^ y).getLsbD i = Bool.xor (x.getLsbD i) (y.getLsbD i)) ∧
  (∀ v : Variant, ∀ a ∈ [smallSigma0Amounts v, smallSigma1Amounts v, bigSigma0Amounts v, bigSigma1Amounts v],
    ∀ n ∈ [a.first, a.second, a.third], 0 < n ∧ n < v.wordBits)

/-- R13: `BE_n(x)` has `n` bytes, byte `i` is bits `8(n-1-i)+7 .. 8(n-1-i)` of `x`; `FromBE(b)` is the sum of its bytes with
their weights; and each is the inverse of the other. -/
def Obligations.BigEndianConversions : Prop :=
  (∀ n x, x < 2 ^ (8 * n) →
    (toBE n x).length = n ∧
    (∀ i, i < n → ((toBE n x).getD i 0).toNat = x / 2 ^ (8 * (n - 1 - i)) % 2 ^ 8) ∧
    fromBE (toBE n x) = x) ∧
  (∀ b : List Byte,
    fromBE b = ((List.range b.length).map fun i => (b.getD i 0).toNat * 2 ^ (8 * (b.length - 1 - i))).sum ∧
    fromBE b < 2 ^ (8 * b.length) ∧ toBE b.length (fromBE b) = b)

/-- R88: `Ch` chooses and `Maj` takes the majority, bit by bit; the identities and the worked values the rule lists. -/
def Obligations.ChoiceAndMajority : Prop :=
  (∀ (w : Nat) (x y z : BitVec w),
    Ch x y z = (x &&& y) ^^^ (~~~x &&& z) ∧ Maj x y z = (x &&& y) ^^^ (x &&& z) ^^^ (y &&& z) ∧
    (∀ i, i < w →
      (Ch x y z).getLsbD i = (if x.getLsbD i then y.getLsbD i else z.getLsbD i) ∧
      (Maj x y z).getLsbD i =
        decide (2 ≤ (x.getLsbD i).toNat + (y.getLsbD i).toNat + (z.getLsbD i).toNat)) ∧
    Ch 0 y z = z ∧ Ch (BitVec.allOnes w) y z = y ∧ Ch x y y = y ∧ Maj x x z = x ∧ Maj 0 (BitVec.allOnes w) z = z ∧
    Maj x y z = Maj y x z ∧ Maj x y z = Maj x z y) ∧
  (Ch (1 : BitVec 1) 1 0 ≠ Ch (1 : BitVec 1) 0 1) ∧
  Ch (0x510e527f : BitVec 32) 0x9b05688c 0x1f83d9ab = 0x1f85c98c ∧
  Maj (0x6a09e667 : BitVec 32) 0xbb67ae85 0x3c6ef372 = 0x3a6fe667

/-- R81, R82, R87, R94: the eight sigma functions, with their amounts, and worked values of each. -/
def Obligations.SigmaFunctions : Prop :=
  (∀ x : Word .a,
    sigma0 x = rotr 7 x ^^^ rotr 18 x ^^^ shr 3 x ∧ sigma1 x = rotr 17 x ^^^ rotr 19 x ^^^ shr 10 x ∧
    Sigma0 x = rotr 2 x ^^^ rotr 13 x ^^^ rotr 22 x ∧ Sigma1 x = rotr 6 x ^^^ rotr 11 x ^^^ rotr 25 x) ∧
  (∀ x : Word .b,
    sigma0 x = rotr 1 x ^^^ rotr 8 x ^^^ shr 7 x ∧ sigma1 x = rotr 19 x ^^^ rotr 61 x ^^^ shr 6 x ∧
    Sigma0 x = rotr 28 x ^^^ rotr 34 x ^^^ rotr 39 x ∧ Sigma1 x = rotr 14 x ^^^ rotr 18 x ^^^ rotr 41 x) ∧
  (sigma0 (0x00000001 : Word .a) = (0x02004000 : Word .a) ∧ sigma1 (0x00000001 : Word .a) = (0x0000a000 : Word .a) ∧
    sigma0 (0x80000000 : Word .a) = (0x11002000 : Word .a) ∧ sigma1 (0x80000000 : Word .a) = (0x00205000 : Word .a) ∧
    sigma0 (0xffffffff : Word .a) = (0x1fffffff : Word .a) ∧ sigma1 (0xffffffff : Word .a) = (0x003fffff : Word .a) ∧
    sigma0 (0 : Word .a) = 0 ∧ sigma1 (0 : Word .a) = 0) ∧
  (Sigma0 (0x00000001 : Word .a) = (0x40080400 : Word .a) ∧ Sigma1 (0x00000001 : Word .a) = (0x04200080 : Word .a) ∧
    Sigma0 (0x80000000 : Word .a) = (0x20040200 : Word .a) ∧ Sigma1 (0x80000000 : Word .a) = (0x02100040 : Word .a) ∧
    Sigma0 (0x6a09e667 : Word .a) = (0xce20b47e : Word .a) ∧ Sigma1 (0x510e527f : Word .a) = (0x3587272b : Word .a) ∧
    Sigma0 (0xffffffff : Word .a) = (0xffffffff : Word .a) ∧ Sigma1 (0xffffffff : Word .a) = (0xffffffff : Word .a) ∧
    Sigma0 (0 : Word .a) = 0 ∧ Sigma1 (0 : Word .a) = 0) ∧
  (sigma0 (1 : Word .b) = (0x8100000000000000 : Word .b) ∧ sigma1 (1 : Word .b) = (0x0000200000000008 : Word .b) ∧
    sigma0 (0x8000000000000000 : Word .b) = (0x4180000000000000 : Word .b) ∧
    sigma1 (0x8000000000000000 : Word .b) = (0x0200100000000004 : Word .b) ∧
    sigma0 (0xffffffffffffffff : Word .b) = (0x01ffffffffffffff : Word .b) ∧
    sigma1 (0xffffffffffffffff : Word .b) = (0x03ffffffffffffff : Word .b) ∧
    sigma0 (0 : Word .b) = 0 ∧ sigma1 (0 : Word .b) = 0) ∧
  (Sigma0 (1 : Word .b) = (0x0000001042000000 : Word .b) ∧ Sigma1 (1 : Word .b) = (0x0004400000800000 : Word .b) ∧
    Sigma0 (0x8000000000000000 : Word .b) = (0x0000000821000000 : Word .b) ∧
    Sigma1 (0x8000000000000000 : Word .b) = (0x0002200000400000 : Word .b) ∧
    Sigma0 (0x6a09e667f3bcc908 : Word .b) = (0x08c4db56aac80c2a : Word .b) ∧
    Sigma1 (0x510e527fade682d1 : Word .b) = (0x9427e33bb5c9dbca : Word .b) ∧
    Sigma0 (0xffffffffffffffff : Word .b) = (0xffffffffffffffff : Word .b) ∧
    Sigma1 (0xffffffffffffffff : Word .b) = (0xffffffffffffffff : Word .b) ∧
    Sigma0 (0 : Word .b) = 0 ∧ Sigma1 (0 : Word .b) = 0 ∧
    Ch (0x510e527fade682d1 : Word .b) (0x9b05688c2b3e6c1f : Word .b) (0x1f83d9abfb41bd6b : Word .b)
      = (0x1f85c98c7b273d3b : Word .b) ∧
    Maj (0x6a09e667f3bcc908 : Word .b) (0xbb67ae8584caa73b : Word .b) (0x3c6ef372fe94f82b : Word .b)
      = (0x3a6fe667f69ce92b : Word .b))

/-- R41, R80: PARSE makes sixteen words; byte `WB*i + j` of the block is byte `j` of word `i`, the one at the lowest offset
the most significant, so every byte of the block enters exactly one word; and in the last block of a padded message words 14
and 15 hold the high and the low half of the bit length. -/
def Obligations.ParseReadsBigEndianWords : Prop :=
  ∀ (v : Variant) (block : List Byte), block.length = v.blockBytes →
    (parse v block).length = 16 ∧
    (∀ i j, i < 16 → j < v.wordBytes →
      ((parse v block).getD i 0).toNat / 2 ^ (8 * (v.wordBytes - 1 - j)) % 2 ^ 8
        = (block.getD (v.wordBytes * i + j) 0).toNat) ∧
    (∀ bits, bits < 2 ^ (8 * v.lengthFieldBytes) →
      block.drop (v.blockBytes - v.lengthFieldBytes) = toBE v.lengthFieldBytes bits →
      ((parse v block).getD 14 0).toNat = bits / 2 ^ v.wordBits ∧
      ((parse v block).getD 15 0).toNat = bits % 2 ^ v.wordBits)

/-- R79, R83: the schedule has `N` words, the first sixteen those of PARSE, and every later one by the recurrence, modulo
`2^W`; the all-zero block gives all zero words. -/
def Obligations.ScheduleFollowsTheRecurrence : Prop :=
  ∀ (v : Variant) (block : List Byte),
    (schedule v block).length = v.rounds ∧
    (∀ i, i < 16 → (schedule v block).getD i 0 = (parse v block).getD i 0) ∧
    (∀ t, 16 ≤ t → t < v.rounds →
      (schedule v block).getD t 0 =
        sigma1 ((schedule v block).getD (t - 2) 0) + (schedule v block).getD (t - 7) 0
          + sigma0 ((schedule v block).getD (t - 15) 0) + (schedule v block).getD (t - 16) 0) ∧
    (block = zeros v.blockBytes → ∀ x ∈ schedule v block, x = 0)

/-- R89, R95 (90_conflicts.md C4): one round, position 4 taking the old `REG[3]` plus `T1`; and the worked rounds of the empty
message for both variants. -/
def Obligations.RoundIsTheSimultaneousAssignment : Prop :=
  (∀ (v : Variant) (k s : Word v) (r : Words8 v),
    let T1 := r.w7 + Sigma1 r.w4 + Ch r.w4 r.w5 r.w6 + k + s
    let T2 := Sigma0 r.w0 + Maj r.w0 r.w1 r.w2
    round k s r = ⟨T1 + T2, r.w0, r.w1, r.w2, r.w3 + T1, r.w4, r.w5, r.w6⟩) ∧
  round (0x428a2f98 : Word .a) (0x80000000 : Word .a) (initialHash .a) =
    ⟨0x7c08884d, 0x6a09e667, 0xbb67ae85, 0x3c6ef372, 0x18c7e2a2, 0x510e527f, 0x9b05688c, 0x1f83d9ab⟩ ∧
  round (0x428a2f98d728ae22 : Word .b) (0x8000000000000000 : Word .b) (initialHash .b) =
    ⟨0x154d6b38bcfcddf5, 0x6a09e667f3bcc908, 0xbb67ae8584caa73b, 0x3c6ef372fe94f82b,
     0x77689eb47ab51f91, 0x510e527fade682d1, 0x9b05688c2b3e6c1f, 0x1f83d9abfb41bd6b⟩

/-- R90, R91, R96: COMPRESS is the five steps: schedule, copy of `H`, the rounds with `t` ascending over `K[t]` and `SCHED[t]`,
and the wordwise sum; it leaves `BUF`, `FILL`, `LEN` and the ports alone, and its new `H` depends on `H` and the block only; and
the worked values of the rules: the padded empty message and the all-zero block from `IV`, for both variants. -/
def Obligations.CompressIsTheFiveSteps : Prop :=
  (∀ (v : Variant) (m : Engine v) (block : List Byte),
    let reg := (List.range v.rounds).foldl
      (fun r t => round ((roundConstants v).getD t 0) ((schedule v block).getD t 0) r) m.h
    let c := compress m block
    c.reg = reg ∧ c.sched.toList = schedule v block ∧
    c.h = ⟨m.h.w0 + reg.w0, m.h.w1 + reg.w1, m.h.w2 + reg.w2, m.h.w3 + reg.w3,
           m.h.w4 + reg.w4, m.h.w5 + reg.w5, m.h.w6 + reg.w6, m.h.w7 + reg.w7⟩ ∧
    c.buf = m.buf ∧ c.fill = m.fill ∧ c.len = m.len ∧ c.phase = m.phase ∧
    ∀ m' : Engine v, m'.h = m.h → (compress m' block).h = c.h) ∧
  roundsOf (initialHash .a) ([0x80] ++ zeros 63) =
    (⟨0x79a6dddb, 0xdd946d8f, 0x5e8d0156, 0xf41fc3ea, 0xd69fef65, 0xc9962ac0, 0x8511bf70, 0x1c71eb3c⟩ : Words8 .a) ∧
  compressHash (initialHash .a) ([0x80] ++ zeros 63) =
    (⟨0xe3b0c442, 0x98fc1c14, 0x9afbf4c8, 0x996fb924, 0x27ae41e4, 0x649b934c, 0xa495991b, 0x7852b855⟩ : Words8 .a) ∧
  compressHash (initialHash .a) (zeros 64) =
    (⟨0xda5698be, 0x17b9b469, 0x62335799, 0x779fbeca, 0x8ce5d491, 0xc0d26243, 0xbafef9ea, 0x1837a9d8⟩ : Words8 .a) ∧
  compressHash (initialHash .b) ([0x80] ++ zeros 127) =
    (⟨0xcf83e1357eefb8bd, 0xf1542850d66d8007, 0xd620e4050b5715dc, 0x83f4a921d36ce9ce, 0x47d0d13c5d85f2b0,
      0xff8318d2877eec2f, 0x63b931bd47417a81, 0xa538327af927da3e⟩ : Words8 .b) ∧
  compressHash (initialHash .b) (zeros 128) =
    (⟨0xcf7881d5774acbe8, 0x533362e0fbc78070, 0x0267639d87460eda, 0x3086cb40e85931b0, 0x717dc95288a023a3,
      0x96bab2c14ce0b5e0, 0x6fc4fe04eae33e0b, 0x91f4d80cbd668bee⟩ : Words8 .b)

/-- R98, R99: one padded block for a remainder up to 55 (A) or 111 (B), two for a longer one, that is one exactly when marker
and length field still fit; never none, never three, each of them whole. -/
def Obligations.PadMakesOneOrTwoWholeBlocks : Prop :=
  ∀ (v : Variant) (rem : List Byte) (total : Nat), rem.length < v.blockBytes →
    (v = .a → (padBlocks v rem total).length = if rem.length ≤ 55 then 1 else 2) ∧
    (v = .b → (padBlocks v rem total).length = if rem.length ≤ 111 then 1 else 2) ∧
    ((padBlocks v rem total).length = 1 ↔ rem.length + 1 + v.lengthFieldBytes ≤ v.blockBytes) ∧
    (∀ b ∈ padBlocks v rem total, b.length = v.blockBytes) ∧
    (padBlocks v rem total).flatten = paddedMessage v rem total

/-- R100: the layout of the padded message: remainder, `0x80`, zeros, and in the last `LF` bytes the length field. -/
def Obligations.PaddedMessageLayout : Prop :=
  ∀ (v : Variant) (rem : List Byte) (total : Nat), rem.length < v.blockBytes →
    let p := paddedMessage v rem total
    let n := padBlockCount v rem.length * v.blockBytes
    p.length = n ∧ p.take rem.length = rem ∧ p.getD rem.length 0 = 0x80 ∧
    (∀ i, rem.length < i → i < n - v.lengthFieldBytes → p.getD i 0 = 0x00) ∧
    p.drop (n - v.lengthFieldBytes) = toBE v.lengthFieldBytes (bitLength v total) ∧
    rem.length + 1 + padZeroCount v rem.length + v.lengthFieldBytes = n ∧
    (rem.length ≤ v.oneBlockMax → padZeroCount v rem.length = v.oneBlockMax - rem.length) ∧
    (v.oneBlockMax < rem.length →
      padZeroCount v rem.length = v.blockBytes + v.oneBlockMax - rem.length ∧
      padBlocks v rem total =
        [rem ++ [0x80] ++ zeros (v.blockBytes - rem.length - 1),
         zeros (v.blockBytes - v.lengthFieldBytes) ++ toBE v.lengthFieldBytes (bitLength v total)])

/-- R101: the length field is the byte counter shifted left by 3 in its own width, big-endian in `LF` bytes at the end of the
padded message; exact below `2^(LENW-3)` bytes; its low three bits are always 0. -/
def Obligations.LengthFieldIsTheBitLength : Prop :=
  ∀ (v : Variant) (total : BitVec v.lenBits),
    bitLength v total.toNat = (total.toNat * 8) % 2 ^ (8 * v.lengthFieldBytes) ∧
    bitLength v total.toNat = (total <<< 3).toNat ∧
    (total.toNat < 2 ^ (v.lenBits - 3) → bitLength v total.toNat = total.toNat * 8) ∧
    bitLength v total.toNat % 8 = 0 ∧
    ∀ rem : List Byte, ∃ front : List Byte, front.length = rem.length + 1 + padZeroCount v rem.length ∧
      paddedMessage v rem total.toNat = front ++ toBE v.lengthFieldBytes (bitLength v total.toNat)

/-- R104, R105: the digest has `DB` bytes, and byte `WB*i + j` is byte `j` of `H[i]`, most significant first. -/
def Obligations.SerializeIsBigEndianInStateOrder : Prop :=
  ∀ (v : Variant) (h : Words8 v),
    (serialize h).length = v.digestBytes ∧
    ∀ i j, i < 8 → j < v.wordBytes →
      ((serialize h).getD (v.wordBytes * i + j) 0).toNat
        = (h.toList.getD i 0).toNat / 2 ^ (8 * (v.wordBytes - 1 - j)) % 2 ^ 8

/-- R61: byte `i` of the digest is byte lane `DB-1-i` of `rsp_data`; as one number `rsp_data` is `H[0]`, ..., `H[7]` with `H[0]` in
the most significant place; and that is what `FINISH` presents, with the final `H`. That the `FINISH` of a host that is not ready
ends its step waiting is the model's cut into steps (log 6), and that `H` holds the final hash state meanwhile is the model's
choice (log 5). -/
def Obligations.ResponsePortPacksTheDigest : Prop :=
  (∀ (v : Variant) (h : Words8 v),
    (∀ d : List Byte, d.length = v.digestBytes → ∀ i, i < v.digestBytes →
      (packDigest v d).toNat / 2 ^ (8 * (v.digestBytes - 1 - i)) % 2 ^ 8 = (d.getD i 0).toNat) ∧
    (packDigest v (serialize h)).toNat = fromBE (serialize h) ∧
    (packDigest v (serialize h)).toNat
      = ((List.range 8).map fun i => (h.toList.getD i 0).toNat * 2 ^ ((7 - i) * v.wordBits)).sum) ∧
  (∀ s : State, s.pins.rspReady = false →
    ∃ m : Engine s.variant,
      exec .finish s = .next { s with engine := m } ∧ m.phase = .waiting (serialize m.h) ∧
      (rspData s.variant m.phase s.ticks).toNat = fromBE (serialize m.h) ∧
      m.h = foldBlocks s.engine.h (padBlocks s.variant s.engine.pending s.engine.totalLength.toNat))

/-- R35: inside the block MemWrite stores its bytes and nothing else, MemRead reads them back and is the cells in order, a store
repeated is the store, and the canonical form is kept; every access of a command lies inside the block. -/
def Obligations.BufferPrimitives : Prop :=
  (∀ (v : Variant) (m : Memory) (off : Nat) (b : List Byte),
    Memory.wf v.blockBytes m = true → off + b.length ≤ v.blockBytes →
    (∀ i, i < b.length → (m.memWrite off b).read (off + i) = b.getD i 0) ∧
    (∀ a, a < off ∨ off + b.length ≤ a → (m.memWrite off b).read a = m.read a) ∧
    (m.memWrite off b).memRead off b.length = b ∧
    (m.memWrite off b).memWrite off b = m.memWrite off b ∧
    Memory.wf v.blockBytes (m.memWrite off b) = true) ∧
  (∀ (m : Memory) (off n : Nat), m.memRead off n = (List.range n).map fun i => m.read (off + i)) ∧
  (∀ (v : Variant) (m : Engine v), m.fill.toNat + 1 ≤ v.blockBytes ∧ 0 + m.fill.toNat ≤ v.blockBytes)

/-- R34 and the model's canonical form: two buffers in canonical form whose cells read alike are the same data. -/
def Obligations.BufferIsDeterminedByItsCells : Prop :=
  ∀ (v : Variant) (m m' : Memory), Memory.wf v.blockBytes m = true → Memory.wf v.blockBytes m' = true →
    (∀ a, a < v.blockBytes → m.read a = m'.read a) → m = m'

/-- R31, R85, R92, R121: the state right after hardware reset of either variant; the values of `BUF`, `REG` and `SCHED` are the
model's (logs 2, 3) and not stated here. -/
def Obligations.InitialStateValues : Prop :=
  (∀ v : Variant,
    (State.resetOf v).variant = v ∧ (State.resetOf v).cmdReady = true ∧ (State.resetOf v).rspValid = false) ∧
  ((State.resetOf .a).engine.h =
    (⟨0x6a09e667, 0xbb67ae85, 0x3c6ef372, 0xa54ff53a, 0x510e527f, 0x9b05688c, 0x1f83d9ab, 0x5be0cd19⟩ : Words8 .a)) ∧
  ((State.resetOf .b).engine.h =
    (⟨0x6a09e667f3bcc908, 0xbb67ae8584caa73b, 0x3c6ef372fe94f82b, 0xa54ff53a5f1d36f1,
      0x510e527fade682d1, 0x9b05688c2b3e6c1f, 0x1f83d9abfb41bd6b, 0x5be0cd19137e2179⟩ : Words8 .b)) ∧
  (∀ v : Variant, (State.resetOf v).engine.fill = 0 ∧ (State.resetOf v).engine.len = 0) ∧
  (∃ v : Variant, State.reset = State.resetOf v)

/-- R67: `RESET` completes in every state: `H <- IV`, `FILL <- 0`, `LEN <- 0`, everything else as before and no response; it is
idempotent, changes nothing after a hardware reset or a `FINISH`, and its word is `00` with any data. -/
def Obligations.ResetCommandGivesTheInitialState : Prop :=
  (∀ s : State,
    exec .reset s = .next { s with engine := { s.engine with h := initialHash s.variant, fill := 0, len := 0 } }) ∧
  (∀ s t : State, exec .reset s = .next t → exec .reset t = .next t) ∧
  (∀ s : State, exec .reset (newInstance s) = .next (newInstance s)) ∧
  (∀ s t : State, s.pins.rspReady = true → exec .finish s = .next t → exec .reset t = .next t) ∧
  (∀ data : Byte, decode (commandWord 0b00 data) = .ok .reset) ∧ encode .reset = 0x000 ∧
  (initialHash .a).w0 = (0x6a09e667 : Word .a) ∧ (initialHash .a).w7 = (0x5be0cd19 : Word .a)

/-- R68: `ABSORB b` completes in every well-formed state. The byte is stored at `FILL`. If it does not complete the block, `FILL`
grows by one and `H`, `LEN` and the scratch stay; if it does, the block of all pending bytes and `b` is compressed once, `FILL`
becomes 0 and `LEN` grows by `BS` modulo `2^LENW`. No response. Any byte value does the same; the word is `01` with the byte. -/
def Obligations.AbsorbAppendsOneByte : Prop :=
  (∀ (s : State) (b : Byte), s.engine.wf = true →
    ∃ m : Engine s.variant,
      exec (.absorb b) s = .next { s with engine := m } ∧
      m.buf = s.engine.buf.memWrite s.engine.fill.toNat [b] ∧ m.phase = s.engine.phase ∧
      (s.engine.fill.toNat ≠ s.variant.blockBytes - 1 →
        m.fill.toNat = s.engine.fill.toNat + 1 ∧ m.h = s.engine.h ∧ m.len = s.engine.len ∧
        m.reg = s.engine.reg ∧ m.sched = s.engine.sched ∧ m.pending = s.engine.pending ++ [b]) ∧
      (s.engine.fill.toNat = s.variant.blockBytes - 1 →
        m.fill = 0 ∧ m.h = compressHash s.engine.h (s.engine.pending ++ [b]) ∧
        m.len.toNat = (s.engine.len.toNat + s.variant.blockBytes) % 2 ^ s.variant.lenBits ∧ m.pending = [])) ∧
  (∀ b : Byte, decode (commandWord 0b01 b) = .ok (.absorb b) ∧ (encode (.absorb b)).toNat = 0x100 + b.toNat)

/-- R69: with a host that takes the response, `FINISH` completes in every state: the pending bytes and the total
`(LEN + FILL) mod 2^LENW` are padded, the one or two blocks compressed in order, the digest of the resulting hash state
transferred, and the instance is in the initial state between commands. Its word is `10` with any data. In the initial state it
answers the digest of the empty message. -/
def Obligations.FinishDeliversTheDigestAndResets : Prop :=
  (∀ s : State, s.pins.rspReady = true →
    ∃ (buf : Memory) (reg : Words8 s.variant) (sched : Vector (Word s.variant) s.variant.rounds),
      exec .finish s = .next
        { s with
          engine := ⟨initialHash s.variant, buf, 0, 0, reg, sched, .ready⟩
          responses := s.responses ++
            [serialize (foldBlocks s.engine.h
              (padBlocks s.variant (s.engine.buf.memRead 0 s.engine.fill.toNat)
                ((s.engine.len.toNat + s.engine.fill.toNat) % 2 ^ s.variant.lenBits)))] }) ∧
  (∀ data : Byte, decode (commandWord 0b10 data) = .ok .finish) ∧ encode .finish = 0x200 ∧
  (∀ s : State, s.variant = .a → s.pins.rspReady = true → s.engine.view = (Engine.initial s.variant).view →
    ∃ m : Engine s.variant,
      exec .finish s = .next
        { s with
          engine := m
          responses := s.responses ++
            [toBE 32 0xe3b0c44298fc1c149afbf4c8996fb92427ae41e4649b934ca495991b7852b855] })

/-- R62 (logs 5, 6): without `rsp_ready` a `FINISH` ends its step with the digest presented; the digest stays as it is, and no command is
accepted, for as long as the host does not take it; at the transfer it is delivered once, `rsp_valid` drops, the instance is
reset and `cmd_ready` rises; without a response `rsp_data` is the free value of log 11. -/
def Obligations.ResponseHandshake : Prop :=
  (∀ s : State, s.pins.rspReady = false →
    ∃ m : Engine s.variant,
      let digest := serialize (foldBlocks s.engine.h (padBlocks s.variant s.engine.pending s.engine.totalLength.toNat))
      exec .finish s = .next { s with engine := m } ∧
      m.h = foldBlocks s.engine.h (padBlocks s.variant s.engine.pending s.engine.totalLength.toNat) ∧
      m.fill = s.engine.fill ∧ m.len = s.engine.totalLength ∧ m.phase = .waiting digest ∧
      m.phase.rspValid = true ∧ m.phase.cmdReady = false ∧
      rspData s.variant m.phase s.ticks = packDigest s.variant digest) ∧
  (∀ (s : State) (digest : List Byte), s.engine.phase = .waiting digest → s.sample.pins.rst = false →
    s.sample.pins.rspReady = false → step s = .next s.sample) ∧
  (∀ s : State, s.sample.engine = s.engine ∧ s.sample.rspValid = s.rspValid ∧ s.sample.cmdReady = s.cmdReady) ∧
  (∀ (s : State) (digest : List Byte), s.engine.phase = .waiting digest → s.sample.pins.rst = false →
    s.sample.pins.rspReady = true →
    step s = .next
      { s.sample with
        engine := { s.sample.engine with h := initialHash s.sample.variant, fill := 0, len := 0, phase := .ready }
        responses := s.responses ++ [digest] }) ∧
  (∀ s : State, s.rspValid = false → s.rspData = Config.idleRspData s.variant s.ticks)

/-- R17, R22 to R24, R36, R43, R63 and the frame of every command: what it leaves unchanged when it gives a next state. `RESET` and
`FINISH` store nothing, `ABSORB` stores one byte at `FILL`. That `FINISH` leaves the cells of `BUF` as they were is the model's
choice (log 5): the spec leaves it free where the padded message is built. -/
def Obligations.CommandFrames : Prop :=
  (∀ (i : Instr) (s t : State), exec i s = .next t →
    t.variant = s.variant ∧ t.pins = s.pins ∧ t.script = s.script ∧ t.ticks = s.ticks ∧
    (i ≠ .finish → t.responses = s.responses ∧ t.engine.phase = s.engine.phase)) ∧
  (∀ (s t : State), exec .reset s = .next t → ∀ a, t.engine.buf.read a = s.engine.buf.read a) ∧
  (∀ (s t : State), exec .finish s = .next t → ∀ a, t.engine.buf.read a = s.engine.buf.read a) ∧
  (∀ (s t : State) (b : Byte), s.engine.wf = true → exec (.absorb b) s = .next t →
    t.engine.buf.read s.engine.fill.toNat = b ∧
    ∀ a, a ≠ s.engine.fill.toNat → t.engine.buf.read a = s.engine.buf.read a) ∧
  (∀ (v : Variant) (m m' : Engine v) (p p' : HostPins) (sc sc' : List HostPins) (rs rs' : List (List Byte)) (k k' : Nat),
    exec .reset ⟨v, m, p, sc, rs, k⟩ = .next ⟨v, m', p', sc', rs', k'⟩ → m'.reg = m.reg ∧ m'.sched = m.sched) ∧
  (∀ (v : Variant) (m m' : Engine v) (p p' : HostPins) (sc sc' : List HostPins) (rs rs' : List (List Byte)) (k k' : Nat)
      (b : Byte), m.fill.toNat ≠ v.blockBytes - 1 →
    exec (.absorb b) ⟨v, m, p, sc, rs, k⟩ = .next ⟨v, m', p', sc', rs', k'⟩ →
    m'.h = m.h ∧ m'.len = m.len ∧ m'.reg = m.reg ∧ m'.sched = m.sched)

/-- R24, R128, V14: at the top of the counter the completed block wraps `LEN` to 0, and nothing else happens than at any other
`LEN`: the byte is stored at `FILL`, the full block compressed once into `H` through `REG` and `SCHED`, `FILL` becomes 0, and the
phase, the ports and the responses stay. -/
def Obligations.LengthCounterWrapsSilently : Prop :=
  ∀ (s : State) (b : Byte), s.engine.fill.toNat = s.variant.blockBytes - 1 →
    s.engine.len.toNat = 2 ^ s.variant.lenBits - s.variant.blockBytes →
    ∃ m : Engine s.variant,
      exec (.absorb b) s = .next { s with engine := m } ∧ m.len = 0 ∧ m.fill = 0 ∧ m.phase = s.engine.phase ∧
      m.buf = s.engine.buf.memWrite s.engine.fill.toNat [b] ∧
      m.h = compressHash s.engine.h (m.buf.memRead 0 s.variant.blockBytes) ∧
      m.reg = roundsOf s.engine.h (m.buf.memRead 0 s.variant.blockBytes) ∧
      m.sched.toList = schedule s.variant (m.buf.memRead 0 s.variant.blockBytes) ∧
      (s.engine.wf = true → m.buf.memRead 0 s.variant.blockBytes = s.engine.pending ++ [b]) ∧
      ∀ len' : BitVec s.variant.lenBits,
        exec (.absorb b) { s with engine := { s.engine with len := len' } }
          = .next { s with engine := { m with len := len' + BitVec.ofNat s.variant.lenBits s.variant.blockBytes } }

/-- R76 with R62: any finite command sequence, from any state between commands whose host takes responses, has exactly one
resulting state, again between commands, and exactly one further response for each `FINISH`. -/
def Obligations.EveryCommandSequenceCompletes : Prop :=
  ∀ (is : List Instr) (s : State), s.pins.rspReady = true → s.engine.phase = .ready →
    ∃ t : State, runCommands is s = .next t ∧ (∀ t', runCommands is s = .next t' → t' = t) ∧
      t.engine.phase = .ready ∧ t.responses.length = s.responses.length + is.count .finish ∧
      s.responses <+: t.responses

/-- R59, R60: a command offered between commands, with `rst` low, is accepted and run to completion in one step: the step is exec of
the decoded command at the state whose pins are the host's next ones. -/
def Obligations.StepRunsTheDecodedCommand : Prop :=
  (∀ (s : State) (i : Instr), s.engine.phase = .ready → s.sample.pins.rst = false →
    s.sample.pins.cmdValid = true → s.sample.pins.rstMidCommand = false → decode s.sample.pins.cmd = .ok i →
    step s = exec i s.sample) ∧
  (∀ (s : State) (p : HostPins) (rest : List HostPins), s.script = p :: rest →
    s.sample = { s with pins := p, script := rest, ticks := s.ticks + 1 }) ∧
  (∀ s : State, s.script = [] → s.sample = { s with pins := HostPins.idle, ticks := s.ticks + 1 }) ∧
  (∀ (s : State) (nbits w : Nat) (i : Instr), decodeTableWord nbits w = some i →
    step (s.withFetchWord nbits w) = exec i (s.withFetchWord nbits w).sample)

/-- R58, R59, R56: a reserved word is refused by name at the step that would accept it, also when `rst` would abandon it (log 7:
deduced, R58 speaks of a whole stream); a command stream that holds one is not admitted; every other word is a command. -/
def Obligations.ReservedWordIsRefused : Prop :=
  (∀ s : State, s.engine.phase = .ready → s.sample.pins.rst = false → s.sample.pins.cmdValid = true →
    opField s.sample.pins.cmd = 0b11 → step s = .refused (.reservedCommand s.sample.pins.cmd)) ∧
  (∀ (ws : List (BitVec 10)) (w : BitVec 10), w ∈ ws → opField w = 0b11 → admittedStream ws = false) ∧
  (∀ w : BitVec 10, opField w ≠ 0b11 → ∃ i, decode w = .ok i)

/-- R59, R125: a word offered while `cmd_ready` is 0 is not accepted: the step is what it would be with nothing offered. -/
def Obligations.WordOfferedWhileBusyIsIgnored : Prop :=
  ∀ (s : State) (p : HostPins) (rest : List HostPins) (w : BitVec 10), s.cmdReady = false →
    ∃ t : State,
      step { s with script := { p with cmdValid := true, cmd := w } :: rest }
        = .next { t with pins := { p with cmdValid := true, cmd := w } } ∧
      step { s with script := { p with cmdValid := false } :: rest }
        = .next { t with pins := { p with cmdValid := false } }

/-- R113, R121: `rst` wins over an offered command and over a response transfer: the initial state, `cmd_ready` and `rsp_valid` low,
nothing accepted, nothing transferred. At the first step with `rst` low `cmd_ready` rises, and nothing is accepted in that step
either. -/
def Obligations.HardwareResetWins : Prop :=
  (∀ s : State, s.sample.pins.rst = true →
    ∃ m : Engine s.sample.variant, step s = .next { s.sample with engine := m } ∧
      m.h = initialHash s.sample.variant ∧ m.fill = 0 ∧ m.len = 0 ∧ m.phase = .inReset) ∧
  (∀ s t : State, s.sample.pins.rst = true → step s = .next t →
    t.cmdReady = false ∧ t.rspValid = false ∧ t.responses = s.responses) ∧
  (∀ s : State, s.engine.phase = .inReset → s.sample.pins.rst = false →
    step s = .next { s.sample with engine := { s.sample.engine with phase := .ready } })

/-- R129 (logs 6, 9): a command abandoned by `rst` leaves the initial state in reset and no response, whatever command it was, and a
waiting response is withdrawn. -/
def Obligations.AbandonedCommandLeavesTheInitialState : Prop :=
  (∀ (s : State) (i : Instr), s.engine.phase = .ready → s.sample.pins.rst = false →
    s.sample.pins.cmdValid = true → s.sample.pins.rstMidCommand = true → decode s.sample.pins.cmd = .ok i →
    ∃ m : Engine s.sample.variant, step s = .next { s.sample with engine := m } ∧
      m.h = initialHash s.sample.variant ∧ m.fill = 0 ∧ m.len = 0 ∧ m.phase = .inReset) ∧
  (∀ (s : State) (digest : List Byte), s.engine.phase = .waiting digest → s.sample.pins.rst = true →
    ∃ m : Engine s.sample.variant, step s = .next { s.sample with engine := m } ∧
      m.h = initialHash s.sample.variant ∧ m.fill = 0 ∧ m.len = 0 ∧ m.phase = .inReset)

/-- R120, R124: between commands, with nothing offered and `rst` low, the instance keeps all its state and `cmd_ready` stays 1. -/
def Obligations.IdleInstanceKeepsItsState : Prop :=
  ∀ s : State, s.engine.phase = .ready → s.sample.pins.rst = false → s.sample.pins.cmdValid = false →
    step s = .next s.sample ∧ s.sample.engine = s.engine ∧ s.sample.responses = s.responses ∧ s.sample.cmdReady = true

/-- R122: hardware reset, `RESET` and the end of `FINISH` leave the same observable state, that of a fresh instance. -/
def Obligations.ThreeResetsLeaveOneView : Prop :=
  ∀ s : State, s.engine.phase = .ready → s.pins.rspReady = true →
    ∃ m1 m2 : Engine s.variant, ∃ rs : List (List Byte),
      exec .reset s = .next { s with engine := m1 } ∧
      exec .finish s = .next { s with engine := m2, responses := rs } ∧
      m1.view = (Engine.initial s.variant).view ∧ m2.view = (Engine.initial s.variant).view ∧
      (newInstance s).engine.view = (Engine.initial s.variant).view

/-- R6: no step changes the variant of an instance. -/
def Obligations.VariantNeverChanges : Prop :=
  ∀ s t : State, step s = .next t → t.variant = s.variant

/-- R58, R76, R109, R124: with a host that offers no reserved word, no run of any length ever stops, and no step of any machine state
faults. -/
def Obligations.AdmittedHostNeverStopsTheMachine : Prop :=
  (∀ (k : Nat) (s : State), s.admitted = true → ∃ t : State, Host.Core.run core k s = .next t ∧ t.admitted = true) ∧
  (∀ (s : State) (f : Fault), step s ≠ .fault f)

/-- R34, R105: a well-formed state stays well formed under every step: the buffer in canonical form within the block, a waiting digest
and every delivered digest exactly `DB` bytes long. -/
def Obligations.StepKeepsStatesWellFormed : Prop :=
  ∀ s t : State, s.wf = true → step s = .next t → t.wf = true

/-- The state after reset is well formed, its script is admitted, and it has absorbed the empty message. -/
def Obligations.ResetStateIsWellFormed : Prop :=
  ∀ v : Variant, (State.resetOf v).wf = true ∧ (State.resetOf v).admitted = true ∧
    (State.resetOf v).engine.Absorbed []

/-- R25 (I2): unless a response waits, `LEN` is a multiple of the block size; every step keeps that. -/
def Obligations.StepKeepsLengthInWholeBlocks : Prop :=
  ∀ s t : State,
    (s.engine.phase.rspValid = false → s.engine.len.toNat % s.variant.blockBytes = 0) →
    step s = .next t →
    (t.engine.phase.rspValid = false → t.engine.len.toNat % t.variant.blockBytes = 0)

/-- R25 (I1 to I5), R73: absorbing a byte extends the message the instance stands for, whatever its length; every complete block is
compressed exactly once, in order; `RESET` makes it the empty message. -/
def Obligations.AbsorbExtendsTheMessage : Prop :=
  (∀ (s : State) (msg : List Byte) (b : Byte), s.engine.Absorbed msg →
    ∃ m : Engine s.variant, exec (.absorb b) s = .next { s with engine := m } ∧ m.Absorbed (msg ++ [b])) ∧
  (∀ s : State, s.engine.wf = true → s.engine.phase = .ready →
    ∃ m : Engine s.variant, exec .reset s = .next { s with engine := m } ∧ m.Absorbed [])

/-- R69, R97, R106: `FINISH` answers the digest of the whole message absorbed since the last reset, padded at once, and leaves the
instance with the empty message. -/
def Obligations.FinishAnswersTheDigestOfTheMessage : Prop :=
  ∀ (s : State) (msg : List Byte), s.engine.Absorbed msg → s.pins.rspReady = true →
    ∃ m : Engine s.variant,
      exec .finish s = .next { s with engine := m, responses := s.responses ++ [messageDigest s.variant msg] } ∧
      m.Absorbed []

/-- R71: the total effect of `DIGEST m` from any fill and any length. -/
def Obligations.DigestEffect : Prop :=
  ∀ (s : State) (msg : List Byte), s.engine.wf = true →
    ∃ m : Engine s.variant,
      runCommands (digestCommands msg) s = .next { s with engine := m } ∧
      m.h = foldBlocks s.engine.h (completeBlocks s.variant (s.engine.pending ++ msg)) ∧
      m.fill.toNat = (s.engine.fill.toNat + msg.length) % s.variant.blockBytes ∧
      m.len.toNat =
        (s.engine.len.toNat + (s.engine.fill.toNat + msg.length) / s.variant.blockBytes * s.variant.blockBytes)
          % 2 ^ s.variant.lenBits ∧
      m.pending = remainder s.variant (s.engine.pending ++ msg)

/-- R74: how many blocks are compressed for a whole message of `n` bytes: `floor(n / BS)` while it is absorbed and one or two at
`FINISH`, together `ceil((n + 1 + LF) / BS)`, all of them whole blocks of the padded message. -/
def Obligations.CompressionsForAMessage : Prop :=
  ∀ (v : Variant) (msg : List Byte),
    (completeBlocks v msg).length = msg.length / v.blockBytes ∧
    (completeBlocks v (paddedWhole v msg)).length
      = (msg.length + 1 + v.lengthFieldBytes + (v.blockBytes - 1)) / v.blockBytes ∧
    (completeBlocks v (paddedWhole v msg)).length
      = msg.length / v.blockBytes + (padBlocks v (remainder v msg) msg.length).length ∧
    (completeBlocks v (paddedWhole v msg)).flatten = paddedWhole v msg ∧
    completeBlocks v (paddedWhole v msg) = completeBlocks v msg ++ padBlocks v (remainder v msg) msg.length

/-- R72, R106: `HASH m` answers the digest of `m`, whatever the well-formed state before it, and leaves the empty message. -/
def Obligations.HashAnswersTheDigestFromAnyState : Prop :=
  ∀ (s : State) (msg : List Byte), s.engine.wf = true → s.engine.phase = .ready → s.pins.rspReady = true →
    ∃ m : Engine s.variant,
      runCommands (hashCommands msg) s
        = .next { s with engine := m, responses := s.responses ++ [messageDigest s.variant msg] } ∧
      m.Absorbed []

/-- R72 through the ports: a host that offers the words of `HASH m`, one a step, and takes the response has the digest of `m` after
`m.length + 2` steps, and the instance is as after a reset. -/
def Obligations.HashThroughThePorts : Prop :=
  ∀ (s : State) (msg : List Byte) (rest : List HostPins), s.engine.wf = true → s.engine.phase = .ready →
    s.script = offerAll (hashCommands msg) ++ rest →
    ∃ m : Engine s.variant,
      Host.Core.run core (msg.length + 2) s
        = .next ({ s with engine := m, pins := offer .finish, script := rest,
                          responses := s.responses ++ [messageDigest s.variant msg],
                          ticks := s.ticks + (msg.length + 2) } : State) ∧
      m.Absorbed []

/-- R77: the commands of the chunks of a message, one after the other, are the commands of the whole message; and on an instance in
the initial state any way of splitting a message into chunks gives the response of `HASH` of the whole. -/
def Obligations.StreamingEquivalence : Prop :=
  (∀ chunks : List (List Byte), chunks.flatMap digestCommands = digestCommands chunks.flatten) ∧
  (∀ (s : State) (chunks : List (List Byte)), s.engine.Absorbed [] → s.pins.rspReady = true →
    ∃ (m1 m2 : Engine s.variant) (digest : List Byte),
      runCommands (chunks.flatMap digestCommands ++ [.finish]) s
        = .next { s with engine := m1, responses := s.responses ++ [digest] } ∧
      runCommands (hashCommands chunks.flatten) s
        = .next { s with engine := m2, responses := s.responses ++ [digest] })

/-- R78: after a `FINISH` the instance behaves as if freshly constructed: `HASH m2` on it answers what it answers on a new instance. -/
def Obligations.InstanceReuse : Prop :=
  ∀ (s : State) (msg : List Byte), s.engine.wf = true → s.pins.rspReady = true →
    ∃ (m m1 m2 : Engine s.variant) (r digest : List Byte),
      exec .finish s = .next { s with engine := m, responses := s.responses ++ [r] } ∧
      m.view = (Engine.initial s.variant).view ∧
      runCommands (hashCommands msg) { s with engine := m, responses := s.responses ++ [r] }
        = .next { s with engine := m1, responses := s.responses ++ [r] ++ [digest] } ∧
      runCommands (hashCommands msg) { State.resetOf s.variant with pins := s.pins }
        = .next { State.resetOf s.variant with pins := s.pins, engine := m2, responses := [digest] }

/-- R32, R33, R37: two well-formed instances with one abstract state stay so under every run, with the same ports and the same
responses: nothing depends on the cells of `BUF` at or above `FILL`, on `REG` or on `SCHED`. -/
def Obligations.RunsDependOnTheAbstractStateOnly : Prop :=
  ∀ (k : Nat) (v : Variant) (m1 m2 : Engine v) (p : HostPins) (sc : List HostPins) (rs : List (List Byte)) (n : Nat)
      (t : State),
    m1.wf = true → m2.wf = true → m1.view = m2.view →
    Host.Core.run core k (⟨v, m1, p, sc, rs, n⟩ : State) = .next t →
    ∃ (m1' m2' : Engine v) (p' : HostPins) (sc' : List HostPins) (rs' : List (List Byte)) (n' : Nat),
      t = ⟨v, m1', p', sc', rs', n'⟩ ∧
      Host.Core.run core k (⟨v, m2, p, sc, rs, n⟩ : State) = .next (⟨v, m2', p', sc', rs', n'⟩ : State) ∧
      m1'.view = m2'.view
end

