-- ==== Sys2Proof/Laws/Bytes.lean ====
section
/-! SUPPORT. Lengths of the sequences the sub-blocks build, and the sizes of a variant as numbers. -/

namespace Sys2Proof

theorem Variant.blockBytes_pos (v : Variant) : 0 < v.blockBytes := by cases v <;> decide

/-- `FILL` has exactly the bits to count `0 .. BS - 1` (R7, R23). -/
theorem Variant.two_pow_fillBits (v : Variant) : 2 ^ v.fillBits = v.blockBytes := by cases v <;> rfl

/-- The length counter and the length field have one width (R101). -/
theorem Variant.lenBits_eq (v : Variant) : v.lenBits = 8 * v.lengthFieldBytes := by cases v <;> rfl

/-- `RMAX1 = BS - 1 - LF` (R7). -/
theorem Variant.oneBlockMax_add (v : Variant) : v.oneBlockMax + 1 + v.lengthFieldBytes = v.blockBytes := by
  cases v <;> rfl

end Sys2Proof

namespace Sys2Proof.Machine

theorem Engine.fill_lt {v : Variant} (m : Engine v) : m.fill.toNat < v.blockBytes :=
  Variant.two_pow_fillBits v ▸ m.fill.isLt

@[simp] theorem toBE_length (n x : Nat) : (toBE n x).length = n := by
  induction n with
  | zero => rfl
  | succ n ih => simp [toBE, ih]

@[simp] theorem zeros_length (k : Nat) : (zeros k).length = k := by simp [zeros]

/-- SERIALIZE gives `DB` bytes (R104, R105). -/
@[simp] theorem serialize_length {v : Variant} (h : Words8 v) : (serialize h).length = v.digestBytes := by
  cases v <;> simp [serialize, Words8.toList, Variant.wordBytes, Variant.digestBytes]

@[simp] theorem parse_length (v : Variant) (block : List Byte) : (parse v block).length = 16 := by simp [parse]

theorem expand_length {v : Variant} (k : Nat) (earlier : List (Word v)) :
    (expand k earlier).length = earlier.length + k := by
  induction k generalizing earlier with
  | zero => rfl
  | succ k ih => rw [expand, ih, List.length_cons]; omega

/-- The schedule of a block has `N` words (R79). -/
@[simp] theorem schedule_length (v : Variant) (block : List Byte) : (schedule v block).length = v.rounds := by
  cases v <;> simp [schedule, expand_length, Variant.rounds]

@[simp] theorem tableLine_length (w line : Nat) : (tableLine w line).length = 4 := rfl

@[simp] theorem roundConstants_length (v : Variant) : (roundConstants v).length = v.rounds := by
  cases v <;> rfl

/-- The padded message is one or two whole blocks (R97, R100). -/
theorem paddedMessage_length (v : Variant) {rem : List Byte} (total : Nat) (h : rem.length < v.blockBytes) :
    (paddedMessage v rem total).length = padBlockCount v rem.length * v.blockBytes := by
  have hmax := Variant.oneBlockMax_add v
  simp only [paddedMessage, padZeroCount, List.length_append, List.length_singleton, zeros_length, toBE_length]
  unfold padBlockCount
  split <;> omega

end Sys2Proof.Machine
end

