-- ==== Sys2Proof/Laws/Blocks.lean ====
section
/-! SUPPORT. A byte sequence as complete blocks and a remainder: lengths, the sequence put together again, and what appending
bytes does. -/

namespace Sys2Proof.Machine

section
variable (v : Variant)

@[simp] theorem completeBlocks_length (x : List Byte) : (completeBlocks v x).length = x.length / v.blockBytes := by
  simp [completeBlocks]

@[simp] theorem remainder_length (x : List Byte) : (remainder v x).length = x.length % v.blockBytes := by
  simp [remainder, Nat.mod_eq_sub]

theorem length_of_mem_completeBlocks (x : List Byte) : ∀ b ∈ completeBlocks v x, b.length = v.blockBytes := by
  intro b hb
  simp only [completeBlocks, List.mem_map, List.mem_range] at hb
  obtain ⟨j, hj, rfl⟩ := hb
  have : v.blockBytes * (j + 1) ≤ x.length := Nat.le_trans (Nat.mul_le_mul_left _ hj) (Nat.mul_div_le _ _)
  rw [Nat.mul_succ] at this
  simp
  omega

/-- The blocks in order and then the remainder are the sequence. -/
theorem completeBlocks_flatten_append_remainder (x : List Byte) :
    (completeBlocks v x).flatten ++ remainder v x = x := by
  have key : ∀ k, v.blockBytes * k ≤ x.length →
      ((List.range k).map fun j => (x.drop (v.blockBytes * j)).take v.blockBytes).flatten = x.take (v.blockBytes * k) := by
    intro k
    induction k with
    | zero => intro; simp
    | succ k ih =>
      intro h
      rw [Nat.mul_succ] at h
      rw [List.range_succ, List.map_append, List.flatten_append, ih (by omega), Nat.mul_succ, List.take_add]
      simp
  rw [completeBlocks, key _ (Nat.mul_div_le _ _), remainder, List.take_append_drop]

/-- Whole blocks in front stay whole blocks in front. -/
theorem completeBlocks_flatten_append (bs : List (List Byte)) (y : List Byte) (h : ∀ b ∈ bs, b.length = v.blockBytes) :
    completeBlocks v (bs.flatten ++ y) = bs ++ completeBlocks v y ∧
      remainder v (bs.flatten ++ y) = remainder v y := by
  have hp := v.blockBytes_pos
  induction bs with
  | nil => simp
  | cons b bs ih =>
    obtain ⟨i1, i2⟩ := ih fun b hb => h b (List.mem_cons_of_mem _ hb)
    have hb := h b List.mem_cons_self
    have hl : ((b :: bs).flatten ++ y).length / v.blockBytes = (bs.flatten ++ y).length / v.blockBytes + 1 := by
      rw [List.flatten_cons, List.append_assoc, List.length_append, hb, Nat.add_comm, Nat.add_div_right _ hp]
    constructor
    · rw [completeBlocks, hl, List.range_succ_eq_map, List.map_cons, List.map_map, List.cons_append, ← i1]
      congr 1
      · simp [← hb]
      · rw [completeBlocks]
        refine List.map_congr_left fun j _ => ?_
        simp only [Function.comp, List.flatten_cons, List.append_assoc, Nat.mul_succ]
        rw [Nat.add_comm, ← List.drop_drop, ← hb, List.drop_left]
    · rw [remainder, hl, ← i2, remainder, Nat.mul_succ, Nat.add_comm, ← List.drop_drop]
      congr 1
      simp [← hb]

/-- Bytes appended to a sequence are appended to its remainder. -/
theorem completeBlocks_append (x y : List Byte) :
    completeBlocks v (x ++ y) = completeBlocks v x ++ completeBlocks v (remainder v x ++ y) ∧
      remainder v (x ++ y) = remainder v (remainder v x ++ y) := by
  have h := completeBlocks_flatten_append v (completeBlocks v x) (remainder v x ++ y) (length_of_mem_completeBlocks v x)
  rwa [← List.append_assoc, completeBlocks_flatten_append_remainder] at h

theorem completeBlocks_of_lt {x : List Byte} (h : x.length < v.blockBytes) :
    completeBlocks v x = [] ∧ remainder v x = x := by
  simp [completeBlocks, remainder, Nat.div_eq_of_lt h]

theorem completeBlocks_of_eq {x : List Byte} (h : x.length = v.blockBytes) :
    completeBlocks v x = [x] ∧ remainder v x = [] := by
  simpa [completeBlocks_of_lt v (x := []) v.blockBytes_pos] using completeBlocks_flatten_append v [x] [] (by simp [h])

end

theorem foldBlocks_append {v : Variant} (h : Words8 v) (a b : List (List Byte)) :
    foldBlocks h (a ++ b) = foldBlocks (foldBlocks h a) b := by
  simp [foldBlocks]

end Sys2Proof.Machine
end

