-- ==== Sys2Proof/Laws/Memory.lean ====
section
/-! SUPPORT. The block buffer: every store keeps the canonical form, a read after a store, and MemRead and MemWrite in
terms of single cells. -/

namespace Sys2Proof.Machine

@[simp] theorem Memory.wf_nil (limit : Nat) : Memory.wf limit [] = true := rfl

theorem Memory.wfFrom_cons_iff {limit low k : Nat} {x : Byte} {m : Memory} :
    Memory.wfFrom limit low ((k, x) :: m) = true ↔
      low ≤ k ∧ k < limit ∧ x ≠ Memory.blank ∧ Memory.wfFrom limit (k + 1) m = true := by
  simp [Memory.wfFrom, and_assoc]

theorem Memory.wfFrom_mono {limit low low' : Nat} {m : Memory} (hle : low' ≤ low)
    (h : Memory.wfFrom limit low m = true) : Memory.wfFrom limit low' m = true := by
  cases m with
  | nil => rfl
  | cons c m =>
    obtain ⟨k, x⟩ := c
    rw [Memory.wfFrom_cons_iff] at h ⊢
    exact ⟨by omega, h.2⟩

/-- Below the least listed offset every cell reads as blank. -/
theorem Memory.read_of_wfFrom {limit low a : Nat} {m : Memory} (h : Memory.wfFrom limit low m = true) (ha : a < low) :
    m.read a = Memory.blank := by
  induction m generalizing low with
  | nil => rfl
  | cons c m ih =>
    obtain ⟨k, x⟩ := c
    rw [Memory.wfFrom_cons_iff] at h
    rw [Memory.read, if_neg (by omega)]
    exact ih h.2.2.2 (by omega)

theorem Memory.wfFrom_cons {limit low off : Nat} {x : Byte} {m : Memory} (hlow : low ≤ off) (hoff : off < limit)
    (h : Memory.wfFrom limit (off + 1) m = true) : Memory.wfFrom limit low (Memory.cons off x m) = true := by
  unfold Memory.cons
  split
  · exact Memory.wfFrom_mono (by omega) h
  · rw [Memory.wfFrom_cons_iff]
    exact ⟨hlow, hoff, ‹_›, h⟩

theorem Memory.wfFrom_write {limit low off : Nat} {x : Byte} {m : Memory} (hlow : low ≤ off) (hoff : off < limit)
    (h : Memory.wfFrom limit low m = true) : Memory.wfFrom limit low (m.write off x) = true := by
  induction m generalizing low with
  | nil => exact Memory.wfFrom_cons hlow hoff rfl
  | cons c m ih =>
    obtain ⟨k, y⟩ := c
    have hc := Memory.wfFrom_cons_iff.1 h
    unfold Memory.write
    split
    · exact Memory.wfFrom_cons hlow hoff (Memory.wfFrom_cons_iff.2 ⟨by omega, hc.2⟩)
    · split
      · subst off
        exact Memory.wfFrom_cons hlow hoff hc.2.2.2
      · exact Memory.wfFrom_cons_iff.2 ⟨hc.1, hc.2.1, hc.2.2.1, ih (by omega) hc.2.2.2⟩

/-- The store of a byte inside the block keeps the canonical form. -/
theorem Memory.wf_write {limit off : Nat} {x : Byte} {m : Memory} (hoff : off < limit)
    (h : Memory.wf limit m = true) : Memory.wf limit (m.write off x) = true :=
  Memory.wfFrom_write (Nat.zero_le _) hoff h

/-- The store of a byte sequence inside the block keeps the canonical form. -/
theorem Memory.wf_memWrite {limit off : Nat} {b : List Byte} {m : Memory} (hoff : off + b.length ≤ limit)
    (h : Memory.wf limit m = true) : Memory.wf limit (m.memWrite off b) = true := by
  induction b generalizing m off with
  | nil => exact h
  | cons x b ih =>
    rw [List.length_cons] at hoff
    exact ih (by omega) (Memory.wf_write (by omega) h)

theorem Memory.read_cons {limit off a : Nat} {x : Byte} {m : Memory} (h : Memory.wfFrom limit (off + 1) m = true) :
    (Memory.cons off x m).read a = if a = off then x else m.read a := by
  unfold Memory.cons
  split
  · rename_i hx
    split
    · rw [Memory.read_of_wfFrom h (by omega), hx]
    · rfl
  · rw [Memory.read]

theorem Memory.read_write_from {limit low off a : Nat} {x : Byte} {m : Memory}
    (h : Memory.wfFrom limit low m = true) :
    (m.write off x).read a = if a = off then x else m.read a := by
  induction m generalizing low with
  | nil => exact Memory.read_cons (limit := limit) rfl
  | cons c m ih =>
    obtain ⟨k, y⟩ := c
    have hc := Memory.wfFrom_cons_iff.1 h
    unfold Memory.write
    split
    · exact Memory.read_cons (limit := limit) (Memory.wfFrom_cons_iff.2 ⟨by omega, hc.2⟩)
    · split
      · subst off
        rw [Memory.read_cons hc.2.2.2, Memory.read]
        split <;> rfl
      · rw [Memory.read, ih hc.2.2.2, Memory.read]
        by_cases hak : a = k
        · subst a
          rw [if_pos rfl, if_pos rfl, if_neg (by omega)]
        · rw [if_neg hak, if_neg hak]

/-- A read after a store: the stored byte at its offset, every other cell as before. -/
theorem Memory.read_write {limit off a : Nat} {x : Byte} {m : Memory} (h : Memory.wf limit m = true) :
    (m.write off x).read a = if a = off then x else m.read a :=
  Memory.read_write_from h

@[simp] theorem Memory.memRead_length (m : Memory) (off n : Nat) : (m.memRead off n).length = n := by
  induction n generalizing off with
  | zero => rfl
  | succ n ih => simp [Memory.memRead, ih]

theorem Memory.memRead_eq_map (m : Memory) (off n : Nat) :
    m.memRead off n = (List.range n).map fun i => m.read (off + i) := by
  induction n generalizing off with
  | zero => rfl
  | succ n ih =>
    rw [Memory.memRead, ih, List.range_succ_eq_map, List.map_cons, List.map_map]
    simp [Function.comp_def, Nat.add_assoc, Nat.add_comm 1]

/-- Reading one more byte appends the byte at the end. -/
theorem Memory.memRead_succ (m : Memory) (off n : Nat) :
    m.memRead off (n + 1) = m.memRead off n ++ [m.read (off + n)] := by
  simp [Memory.memRead_eq_map, List.range_succ]

/-- `MemRead` sees a store only where it reads. -/
theorem Memory.memRead_write_of_le {limit off n k : Nat} {x : Byte} {m : Memory} (h : Memory.wf limit m = true)
    (hk : off + n ≤ k) : (m.write k x).memRead off n = m.memRead off n := by
  rw [Memory.memRead_eq_map, Memory.memRead_eq_map]
  refine List.map_congr_left fun i hi => ?_
  rw [List.mem_range] at hi
  rw [Memory.read_write h, if_neg (by omega)]

/-- The pending bytes after the store of the next one. -/
theorem Memory.memRead_write_next {limit n : Nat} {x : Byte} {m : Memory} (h : Memory.wf limit m = true) :
    (m.write n x).memRead 0 (n + 1) = m.memRead 0 n ++ [x] := by
  rw [Memory.memRead_succ, Memory.memRead_write_of_le h (by omega), Memory.read_write h, if_pos (by omega)]

end Sys2Proof.Machine
end

