-- ==== Sys2Proof/Laws/State.lean ====
section
/-! SUPPORT. The fields of a state after each update the operations make, one lemma a field, true by unfolding. -/

namespace Sys2Proof.Machine

section
variable (s : State) (m : Engine s.variant)

@[simp] theorem State.withEngine_variant : (s.withEngine m).variant = s.variant := rfl
@[simp] theorem State.withEngine_engine : (s.withEngine m).engine = m := rfl
@[simp] theorem State.withEngine_pins : (s.withEngine m).pins = s.pins := rfl
@[simp] theorem State.withEngine_script : (s.withEngine m).script = s.script := rfl
@[simp] theorem State.withEngine_responses : (s.withEngine m).responses = s.responses := rfl
@[simp] theorem State.withEngine_ticks : (s.withEngine m).ticks = s.ticks := rfl

@[simp] theorem State.hardwareReset_variant : s.hardwareReset.variant = s.variant := rfl
@[simp] theorem State.hardwareReset_engine :
    s.hardwareReset.engine = { s.engine.initialise with phase := .inReset } := rfl
@[simp] theorem State.hardwareReset_pins : s.hardwareReset.pins = s.pins := rfl
@[simp] theorem State.hardwareReset_script : s.hardwareReset.script = s.script := rfl
@[simp] theorem State.hardwareReset_responses : s.hardwareReset.responses = s.responses := rfl
@[simp] theorem State.hardwareReset_ticks : s.hardwareReset.ticks = s.ticks := rfl

@[simp] theorem State.releaseReset_variant : s.releaseReset.variant = s.variant := rfl
@[simp] theorem State.releaseReset_engine : s.releaseReset.engine = { s.engine with phase := .ready } := rfl
@[simp] theorem State.releaseReset_pins : s.releaseReset.pins = s.pins := rfl
@[simp] theorem State.releaseReset_script : s.releaseReset.script = s.script := rfl
@[simp] theorem State.releaseReset_responses : s.releaseReset.responses = s.responses := rfl
@[simp] theorem State.releaseReset_ticks : s.releaseReset.ticks = s.ticks := rfl

@[simp] theorem State.sample_variant : s.sample.variant = s.variant := rfl
@[simp] theorem State.sample_engine : s.sample.engine = s.engine := rfl
@[simp] theorem State.sample_responses : s.sample.responses = s.responses := rfl
@[simp] theorem State.sample_ticks : s.sample.ticks = s.ticks + 1 := rfl
@[simp] theorem State.sample_script : s.sample.script = s.script.tail := rfl
@[simp] theorem State.sample_pins : s.sample.pins = s.script.headD HostPins.idle := rfl

end

section
variable {v : Variant} (m : Engine v) (b : Byte) (block : List Byte)

@[simp] theorem Engine.initialise_h : m.initialise.h = initialHash v := rfl
@[simp] theorem Engine.initialise_buf : m.initialise.buf = m.buf := rfl
@[simp] theorem Engine.initialise_fill : m.initialise.fill = 0 := rfl
@[simp] theorem Engine.initialise_len : m.initialise.len = 0 := rfl
@[simp] theorem Engine.initialise_reg : m.initialise.reg = m.reg := rfl
@[simp] theorem Engine.initialise_sched : m.initialise.sched = m.sched := rfl
@[simp] theorem Engine.initialise_phase : m.initialise.phase = m.phase := rfl

@[simp] theorem Engine.storeByte_h : (m.storeByte b).h = m.h := rfl
@[simp] theorem Engine.storeByte_buf : (m.storeByte b).buf = m.buf.write m.fill.toNat b := rfl
@[simp] theorem Engine.storeByte_fill : (m.storeByte b).fill = m.fill := rfl
@[simp] theorem Engine.storeByte_len : (m.storeByte b).len = m.len := rfl
@[simp] theorem Engine.storeByte_reg : (m.storeByte b).reg = m.reg := rfl
@[simp] theorem Engine.storeByte_sched : (m.storeByte b).sched = m.sched := rfl
@[simp] theorem Engine.storeByte_phase : (m.storeByte b).phase = m.phase := rfl

@[simp] theorem compress_h : (compress m block).h = compressHash m.h block := rfl
@[simp] theorem compress_buf : (compress m block).buf = m.buf := rfl
@[simp] theorem compress_fill : (compress m block).fill = m.fill := rfl
@[simp] theorem compress_len : (compress m block).len = m.len := rfl
@[simp] theorem compress_reg : (compress m block).reg = roundsOf m.h block := rfl
@[simp] theorem compress_phase : (compress m block).phase = m.phase := rfl

@[simp] theorem Engine.completeBlock_h :
    m.completeBlock.h = compressHash m.h (m.buf.memRead 0 v.blockBytes) := rfl
@[simp] theorem Engine.completeBlock_buf : m.completeBlock.buf = m.buf := rfl
@[simp] theorem Engine.completeBlock_fill : m.completeBlock.fill = 0 := rfl
@[simp] theorem Engine.completeBlock_len :
    m.completeBlock.len = m.len + BitVec.ofNat v.lenBits v.blockBytes := rfl
@[simp] theorem Engine.completeBlock_phase : m.completeBlock.phase = m.phase := rfl

end

end Sys2Proof.Machine
end

