-- ==== Sys2Proof/Laws/Ops.lean ====
section
/-! SUPPORT. What each shared operation can do, said once: COMPRESS over blocks, the end of a message, the response
transfer, the two cases of an absorbed byte, and the port events. -/

namespace Sys2Proof.Machine

section
variable {v : Variant}

/-- COMPRESS over blocks folds the hash state and leaves buffer, fill, length and progress alone (R66, R90 (a)). -/
theorem compressAll_fields (m : Engine v) (blocks : List (List Byte)) :
    (compressAll m blocks).h = foldBlocks m.h blocks ∧ (compressAll m blocks).buf = m.buf ∧
      (compressAll m blocks).fill = m.fill ∧ (compressAll m blocks).len = m.len ∧
      (compressAll m blocks).phase = m.phase := by
  induction blocks generalizing m with
  | nil => exact ⟨rfl, rfl, rfl, rfl, rfl⟩
  | cons b bs ih => exact ih (compress m b)

/-- What FINISH leaves before its response is transferred (R69, R62). -/
theorem Engine.finishMessage_fields (m : Engine v) :
    m.finishMessage.h = foldBlocks m.h (padBlocks v m.pending m.totalLength.toNat) ∧
      m.finishMessage.buf = m.buf ∧ m.finishMessage.fill = m.fill ∧ m.finishMessage.len = m.totalLength ∧
      m.finishMessage.phase =
        .waiting (serialize (foldBlocks m.h (padBlocks v m.pending m.totalLength.toNat))) := by
  obtain ⟨hh, hb, hf, hl, -⟩ :=
    compressAll_fields { m with len := m.totalLength } (padBlocks v m.pending m.totalLength.toNat)
  exact ⟨hh, hb, hf, hl, congrArg (fun h => Phase.waiting (serialize h)) hh⟩

/-- A byte that does not complete the block (R68). -/
theorem Engine.absorbByte_mid {m : Engine v} {b : Byte} (h : m.fill.toNat ≠ v.blockBytes - 1) :
    m.absorbByte b = { m with buf := m.buf.write m.fill.toNat b, fill := m.fill + 1 } := by
  simp [Engine.absorbByte, Engine.lastByte, h, Engine.storeByte, Memory.memWrite]

/-- The byte that completes the block (R68). -/
theorem Engine.absorbByte_last {m : Engine v} {b : Byte} (h : m.fill.toNat = v.blockBytes - 1) :
    m.absorbByte b = (m.storeByte b).completeBlock := by
  simp [Engine.absorbByte, Engine.lastByte, h]

/-- Absorbing a byte is one of two things: store and count, or store, compress and empty the buffer (R75). -/
theorem Engine.absorbByte_cases (m : Engine v) (b : Byte) :
    (m.fill.toNat ≠ v.blockBytes - 1 ∧
        m.absorbByte b = { m with buf := m.buf.write m.fill.toNat b, fill := m.fill + 1 }) ∨
      (m.fill.toNat = v.blockBytes - 1 ∧ m.absorbByte b = (m.storeByte b).completeBlock) := by
  by_cases h : m.fill.toNat = v.blockBytes - 1
  · exact .inr ⟨h, Engine.absorbByte_last h⟩
  · exact .inl ⟨h, Engine.absorbByte_mid h⟩

@[simp] theorem Engine.absorbByte_buf (m : Engine v) (b : Byte) :
    (m.absorbByte b).buf = m.buf.write m.fill.toNat b := by
  obtain ⟨-, h⟩ | ⟨-, h⟩ := Engine.absorbByte_cases m b
  · rw [h]
  · rw [h]; rfl

@[simp] theorem Engine.absorbByte_phase (m : Engine v) (b : Byte) : (m.absorbByte b).phase = m.phase := by
  obtain ⟨-, h⟩ | ⟨-, h⟩ := Engine.absorbByte_cases m b
  · rw [h]
  · rw [h]; rfl

theorem Engine.wf_iff (m : Engine v) :
    m.wf = true ↔ Memory.wf v.blockBytes m.buf = true ∧ m.phase.wf v = true := by
  simp [Engine.wf]

end

/-- The transfer of a waiting digest (R62). -/
theorem State.takeResponse_waiting {s : State} {digest : List Byte} (h : s.engine.phase = .waiting digest) :
    s.takeResponse =
      { s with
        engine := { s.engine.initialise with phase := .ready }
        responses := s.responses ++ [digest] } := by
  simp only [State.takeResponse, h]

/-- Every port event that is not an accepted or abandoned command leaves a next state. -/
theorem runEvent_cases (e : PortEvent) (s : State) :
    runEvent e s = .next s.hardwareReset ∨ runEvent e s = .next s.releaseReset ∨
      runEvent e s = .next s.takeResponse ∨ runEvent e s = .next s ∨
      (∃ w, e = .accept w ∧ runEvent e s = acceptCommand w s) ∨
      (∃ w, e = .abandon w ∧ runEvent e s = abandonCommand w s) := by
  cases e with
  | hardwareReset => exact .inl rfl
  | releaseReset => exact .inr (.inl rfl)
  | transfer => exact .inr (.inr (.inl rfl))
  | hold => exact .inr (.inr (.inr (.inl rfl)))
  | idle => exact .inr (.inr (.inr (.inl rfl)))
  | accept w => exact .inr (.inr (.inr (.inr (.inl ⟨w, rfl, rfl⟩))))
  | abandon w => exact .inr (.inr (.inr (.inr (.inr ⟨w, rfl, rfl⟩))))

/-- An accepted command word is executed, or refused because it is reserved (R58). -/
theorem acceptCommand_cases (w : BitVec 10) (s : State) :
    (∃ i, decode w = .ok i ∧ acceptCommand w s = exec i s) ∨
      (∃ r, decode w = .error (.reservedOp r) ∧ acceptCommand w s = .refused (.reservedCommand r)) := by
  unfold acceptCommand
  rcases h : decode w with ⟨⟨r⟩⟩ | i
  · exact .inr ⟨r, by simp⟩
  · exact .inl ⟨i, by simp⟩

/-- An abandoned command word leaves the initial state, or is refused because it is reserved (R58, R129). -/
theorem abandonCommand_cases (w : BitVec 10) (s : State) :
    (∃ i, decode w = .ok i ∧ abandonCommand w s = .next s.hardwareReset) ∨
      (∃ r, decode w = .error (.reservedOp r) ∧ abandonCommand w s = .refused (.reservedCommand r)) := by
  unfold abandonCommand
  rcases h : decode w with ⟨⟨r⟩⟩ | i
  · exact .inr ⟨r, by simp⟩
  · exact .inl ⟨i, by simp⟩

/-- The three ways a command can end: the initial state, a byte absorbed, the digest transferred or waiting. -/
theorem exec_cases (i : Instr) (s : State) :
    exec i s = .next (s.withEngine s.engine.initialise) ∨
      (∃ b, i = .absorb b ∧ exec i s = .next (s.withEngine (s.engine.absorbByte b))) ∨
      (s.pins.rspReady = true ∧ exec i s = .next (s.withEngine s.engine.finishMessage).takeResponse) ∨
      (s.pins.rspReady = false ∧ exec i s = .next (s.withEngine s.engine.finishMessage)) := by
  cases i with
  | reset => exact .inl rfl
  | absorb b => exact .inr (.inl ⟨b, rfl, rfl⟩)
  | finish =>
    cases h : s.pins.rspReady with
    | true => exact .inr (.inr (.inl ⟨rfl, by simp [exec, execFinish, h]⟩))
    | false => exact .inr (.inr (.inr ⟨rfl, by simp [exec, execFinish, h]⟩))

end Sys2Proof.Machine
end

