-- ==== Sys2Proof/Laws/PerInstr.lean ====
section
/-! SUPPORT. A statement about every command as syntax, one lemma a constructor: the canonical command word of R64. -/

namespace Sys2Proof.Laws.CanonicalWord

/-- The number a host sends for a command: `0x000`, `0x100 + b`, `0x200` (R64; spec/30_encoding.md). -/
def wordNumber : Instr → Nat
  | .reset => 0x000
  | .absorb b => 0x100 + b.toNat
  | .finish => 0x200

/-- The encoder gives that number, in the command's row of the opcode table. -/
def Statement (i : Instr) : Prop :=
  (encode i).toNat = wordNumber i ∧ (opcodeRow i).covers (encode i) = true

theorem reset : Statement .reset := ⟨by decide, by decide⟩

theorem absorb (b : Byte) : Statement (.absorb b) := by
  revert b
  unfold Statement
  decide

theorem finish : Statement .finish := ⟨by decide, by decide⟩

end Sys2Proof.Laws.CanonicalWord
end

