-- ==== Sys2Proof/Laws/Step.lean ====
section
/-! SUPPORT. What a command and a step can do, each said once, and a run unrolled by one step. -/

namespace Sys2Proof.Machine

/-- `FINISH` with a host that takes the response (R69). -/
theorem exec_finish_ready {s : State} (h : s.pins.rspReady = true) :
    exec .finish s = .next
      { s with
        engine := { s.engine.finishMessage.initialise with phase := .ready }
        responses := s.responses ++
          [serialize (foldBlocks s.engine.h (padBlocks s.variant s.engine.pending s.engine.totalLength.toNat))] } := by
  obtain ⟨-, -, -, -, hp⟩ := Engine.finishMessage_fields s.engine
  have he : exec .finish s = .next (s.withEngine s.engine.finishMessage).takeResponse := by simp [exec, execFinish, h]
  rw [he, State.takeResponse_waiting (s := s.withEngine s.engine.finishMessage) hp]
  rfl

/-- `FINISH` with a host that does not take the response yet (R62). -/
theorem exec_finish_waiting {s : State} (h : s.pins.rspReady = false) :
    exec .finish s = .next (s.withEngine s.engine.finishMessage) := by
  simp [exec, execFinish, h]

/-- Every command leaves a next state that differs in the instance and in the responses at most (R76). -/
theorem exec_next (i : Instr) (s : State) :
    ∃ (m : Engine s.variant) (rs : List (List Byte)), exec i s = .next { s with engine := m, responses := rs } := by
  cases i with
  | reset => exact ⟨_, _, rfl⟩
  | absorb b => exact ⟨_, _, rfl⟩
  | finish =>
    cases h : s.pins.rspReady with
    | true => exact ⟨_, _, exec_finish_ready h⟩
    | false => exact ⟨_, _, exec_finish_waiting h⟩

/-- Everything a step with a next state can have done: hardware reset (or a command abandoned by one), the end of a reset, a
response transferred, nothing at all, or a command executed. -/
theorem step_cases {s t : State} (h : step s = .next t) :
    t = s.sample.hardwareReset ∨
      (s.engine.phase = .inReset ∧ t = s.sample.releaseReset) ∨
      (∃ d, s.engine.phase = .waiting d ∧ s.sample.pins.rspReady = true ∧ t = s.sample.takeResponse) ∨
      t = s.sample ∨
      (s.engine.phase = .ready ∧ s.sample.pins.cmdValid = true ∧
        ∃ i, decode s.sample.pins.cmd = .ok i ∧ exec i s.sample = .next t) := by
  unfold step at h
  rw [State.sample_engine] at h
  unfold portEvent at h
  split at h
  · cases h
    exact .inl rfl
  · split at h
    · rename_i hd
      cases h
      exact .inr (.inl ⟨hd, rfl⟩)
    · rename_i d hd
      split at h
      · rename_i hr
        cases h
        exact .inr (.inr (.inl ⟨d, hd, hr, rfl⟩))
      · cases h
        exact .inr (.inr (.inr (.inl rfl)))
    · rename_i hd
      split at h
      · rename_i hv
        split at h
        · obtain ⟨i, -, h2⟩ | ⟨r, -, h2⟩ := abandonCommand_cases s.sample.pins.cmd s.sample
          · rw [runEvent, h2] at h
            cases h
            exact .inl rfl
          · rw [runEvent, h2] at h
            cases h
        · obtain ⟨i, hi, h2⟩ | ⟨r, -, h2⟩ := acceptCommand_cases s.sample.pins.cmd s.sample
          · rw [runEvent, h2] at h
            exact .inr (.inr (.inr (.inr ⟨hd, hv, i, hi, h⟩)))
          · rw [runEvent, h2] at h
            cases h
      · cases h
        exact .inr (.inr (.inr (.inl rfl)))

/-- A run of one step more, when that step leaves a next state. -/
theorem run_succ_of_next {M : Host.Core} {k : Nat} {s t : M.State} (h : M.step s = .next t) :
    M.run (k + 1) s = M.run k t := by
  simp only [Host.Core.run, h]

/-- A run whose first step is refused is refused. -/
theorem run_succ_of_refused {M : Host.Core} {k : Nat} {s : M.State} {r : M.Refusal} (h : M.step s = .refused r) :
    M.run (k + 1) s = .refused r := by
  simp only [Host.Core.run, h]

end Sys2Proof.Machine
end

