-- ==== Sys2Proof/Tests/Slice0.lean ====
section
/-! SUPPORT. Tests. Expected results come from spec/95_test_vectors.md (V1 to V15) and from the words of the rules named; then
one witness for the hypotheses of every statement that has some, at the boundary values of each clause. -/

namespace Sys2Proof.Tests

set_option Elab.async false

open Sys2Proof.Machine

/-- An initial instance after `k` bytes `b` stored in its buffer. -/
def filled (v : Variant) (k : Nat) (b : Byte) : Engine v :=
  { Engine.initial v with buf := Memory.memWrite [] 0 (List.replicate k b), fill := BitVec.ofNat v.fillBits k }

/-- The state after reset with another instance and with `rsp_ready` as given. -/
def stateOf (v : Variant) (m : Engine v) (rspReady : Bool) : State :=
  ⟨v, m, ⟨false, false, 0, rspReady, false⟩, [], [], 0⟩

/-- A state whose host drives the given pins at the next step. -/
def driven (v : Variant) (m : Engine v) (p : HostPins) : State :=
  ⟨v, m, HostPins.idle, [p], [], 0⟩

/-- An initial instance with stale bytes in the buffer and other scratch values. -/
def staleInstance (v : Variant) : Engine v :=
  { filled v 6 0x78 with fill := 0, reg := initialHash v, sched := Vector.replicate v.rounds 1 }

/-- An instance that waits with a digest of `DB` zero bytes. -/
def waitingInstance (v : Variant) : Engine v :=
  { Engine.initial v with phase := .waiting (zeros v.digestBytes) }

/-- An instance in reset. -/
def inResetInstance (v : Variant) : Engine v :=
  { Engine.initial v with phase := .inReset }

/-- An instance one byte short of a block, at the top of the length counter (V14). -/
def topOfCounter (v : Variant) : Engine v :=
  { filled v (v.blockBytes - 1) 0x61 with len := BitVec.ofNat v.lenBits (2 ^ v.lenBits - v.blockBytes) }

/-- The responses of the state a step leaves, and nothing of a step that stops. -/
def responsesOf : Host.Outcome State Fault Refusal → List (List Byte)
  | .next t => t.responses
  | .fault _ => []
  | .refused _ => []

/-- What a test asks of the state a command leaves: a command that stops answers false. -/
def holdsNext (o : Host.Outcome State Fault Refusal) (p : State → Bool) : Bool :=
  match o with
  | .next t => p t
  | .fault _ => false
  | .refused _ => false

/-! ## Well-formedness: each check on an ill-formed and on a well-formed term -/

theorem test_admitted_word_refuses_300 : admittedWord 0x300 = false := by decide
theorem test_admitted_word_refuses_3ff : admittedWord 0x3ff = false := by decide
theorem test_admitted_word_accepts_2ff : admittedWord 0x2ff = true := by decide
theorem test_admitted_stream_refuses_a_reserved_word : admittedStream [0x000, 0x161, 0x3a5, 0x200] = false := by decide
theorem test_admitted_stream_accepts_abc : admittedStream [0x000, 0x161, 0x162, 0x163, 0x200] = true := by decide
theorem test_instr_well_formed : (Instr.absorb 0xff).wellFormed = true ∧ Instr.reset.wellFormed = true ∧
    Instr.finish.wellFormed = true := by decide
theorem test_memory_refuses_unsorted : Memory.wf 64 [(3, 1), (2, 1)] = false := by decide
theorem test_memory_refuses_a_repeat : Memory.wf 64 [(3, 1), (3, 2)] = false := by decide
theorem test_memory_refuses_a_blank_entry : Memory.wf 64 [(3, 0)] = false := by decide
theorem test_memory_refuses_an_offset_outside : Memory.wf 64 [(64, 1)] = false := by decide
theorem test_memory_accepts : Memory.wf 64 [(0, 1), (63, 1)] = true := by decide
theorem test_state_refuses_a_short_digest : (stateOf .a { Engine.initial .a with phase := .waiting [0] } true).wf = false := by
  decide

/-! ## Decoding: words written out from R53 and R54 (V15) -/

theorem test_decode_reset : decode 0b0000000000 = .ok .reset := by decide
theorem test_decode_reset_ignores_data : decode 0b0011111111 = .ok .reset := by decide
theorem test_decode_absorb_61 : decode 0b0101100001 = .ok (.absorb 0x61) := by decide
theorem test_decode_absorb_80 : decode 0b0110000000 = .ok (.absorb 0x80) := by decide
theorem test_decode_finish : decode 0b1000000000 = .ok .finish := by decide
theorem test_decode_finish_ignores_data : decode 0b1010100101 = .ok .finish := by decide
theorem test_decode_reserved : decode 0b1111111111 = .error (.reservedOp 0x3ff) := by decide
theorem test_table_word_absorb : decodeTableWord 16 0x161 = some (.absorb 0x61) := by decide
theorem test_table_word_finish : decodeTableWord 16 0x200 = some .finish := by decide
theorem test_table_word_reserved : decodeTableWord 16 0x300 = none := by decide
theorem test_table_word_above_ten_bits : decodeTableWord 16 0x400 = none := by decide

/-! ## Primitives (V8 to V14) -/

theorem test_rotr_31 : rotr 31 (0x80000001 : BitVec 32) = 0x00000003 := by decide
theorem test_rotr_63 : rotr 63 (0x8000000000000001 : BitVec 64) = 0x3 := by decide
theorem test_shr_loses_the_low_bit : shr 3 (0x80000001 : BitVec 32) = 0x10000000 := by decide
theorem test_sigma_a : (Sigma0 (0x01234567 : Word .a), Sigma1 (0x01234567 : Word .a), sigma0 (0x01234567 : Word .a),
    sigma1 (0x01234567 : Word .a)) =
      ((0x66654447 : Word .a), (0xa1461afd : Word .a), (0x1f7fee6e : Word .a), (0xca1f2864 : Word .a)) := by
  decide +kernel
theorem test_sigma_b : (Sigma0 (0x0123456789abcdef : Word .b), Sigma1 (0x0123456789abcdef : Word .b),
    sigma0 (0x0123456789abcdef : Word .b), sigma1 (0x0123456789abcdef : Word .b)) =
      ((0xb7c57a100c7ec1ab : Word .b), (0x7703112333475567 : Word .b), (0x6f92c77c6c4f1aa1 : Word .b),
        (0x70a3460dbbd4317a : Word .b)) := by
  decide +kernel
theorem test_addition_drops_the_carry : (0xa54ff53a : Word .a) + (0x7377ed68 : Word .a) = (0x18c7e2a2 : Word .a) := by
  decide +kernel
theorem test_parse_is_big_endian :
    (parse .a ([0x48, 0x65, 0x6c, 0x6c] ++ zeros 60)).head? = some (0x48656c6c : Word .a) := by
  decide +kernel
theorem test_schedule_of_abc :
    (schedule .a ([0x61, 0x62, 0x63, 0x80] ++ zeros 59 ++ [0x18])).drop 62
      = [(0xeeaba2cc : Word .a), (0x12b1edeb : Word .a)] := by
  decide +kernel
theorem test_schedule_of_abc_b :
    (schedule .b ([0x61, 0x62, 0x63, 0x80] ++ zeros 123 ++ [0x18])).drop 78
      = [(0xe449b68198ec611c : Word .b), (0x92aeeed1a7bcf7d2 : Word .b)] := by
  decide +kernel
theorem test_compress_64_61 :
    compressHash (initialHash .a) (List.replicate 64 0x61) =
      (⟨0xdf5bb81c, 0xe81e0626, 0xfb45a894, 0x4fd40f31, 0xb25e6816, 0xd6d499c1, 0xab904929, 0x00635e66⟩ : Words8 .a) := by
  decide +kernel
theorem test_compress_128_00 :
    compressHash (initialHash .b) (zeros 128) =
      (⟨0xcf7881d5774acbe8, 0x533362e0fbc78070, 0x0267639d87460eda, 0x3086cb40e85931b0, 0x717dc95288a023a3,
        0x96bab2c14ce0b5e0, 0x6fc4fe04eae33e0b, 0x91f4d80cbd668bee⟩ : Words8 .b) := by
  decide +kernel
theorem test_pad_55 : padBlocks .a (List.replicate 55 0x61) 55 =
    [List.replicate 55 0x61 ++ [0x80, 0, 0, 0, 0, 0, 0, 0x01, 0xb8]] := by decide +kernel
theorem test_pad_56 : padBlocks .a (List.replicate 56 0x61) 56 =
    [List.replicate 56 0x61 ++ [0x80] ++ zeros 7, zeros 56 ++ [0, 0, 0, 0, 0, 0, 0x01, 0xc0]] := by decide +kernel
theorem test_pad_112_b : padBlocks .b (zeros 112) 112 =
    [zeros 112 ++ [0x80] ++ zeros 15, zeros 126 ++ [0x03, 0x80]] := by decide +kernel
theorem test_pad_counter_overflows_the_field : padBlocks .a [] (2 ^ 61) = [[0x80] ++ zeros 63] := by decide +kernel
theorem test_serialize_keeps_leading_zeros :
    (serialize (⟨0xba7816bf, 0, 0, 0, 0, 0, 0, 0x00635e66⟩ : Words8 .a)).take 4 = [0xba, 0x78, 0x16, 0xbf] ∧
    (serialize (⟨0xba7816bf, 0, 0, 0, 0, 0, 0, 0x00635e66⟩ : Words8 .a)).drop 28 = [0x00, 0x63, 0x5e, 0x66] := by
  decide +kernel
theorem test_response_port_byte_lanes :
    (packDigest .a ([0xba] ++ zeros 30 ++ [0xad])).toNat
      = 0xba000000000000000000000000000000000000000000000000000000000000ad := by
  decide +kernel

/-! ## Commands: two tests each -/

/-- R67 and V16: a RESET in the middle of a message. -/
theorem test_reset_in_a_message :
    holdsNext (exec .reset (stateOf .a (topOfCounter .a) true)) (fun t =>
      t.engine.fill.toNat == 0 && t.engine.len.toNat == 0 && t.engine.h.toList.map BitVec.toNat ==
        [0x6a09e667, 0xbb67ae85, 0x3c6ef372, 0xa54ff53a, 0x510e527f, 0x9b05688c, 0x1f83d9ab, 0x5be0cd19]) = true := by
  decide +kernel
/-- R67 and P4: the stale cells stay, no response. -/
theorem test_reset_leaves_the_buffer :
    holdsNext (exec .reset (stateOf .b (filled .b 6 0x78) true)) (fun t =>
      t.engine.buf == [(0, 0x78), (1, 0x78), (2, 0x78), (3, 0x78), (4, 0x78), (5, 0x78)] && t.responses == []) = true := by
  decide +kernel
/-- R68: one byte in the middle of a block. -/
theorem test_absorb_in_a_block :
    holdsNext (exec (.absorb 0x63) (stateOf .a (filled .a 62 0x61) false)) (fun t =>
      t.engine.fill.toNat == 63 && t.engine.buf.read 62 == 0x63 && t.engine.buf.read 61 == 0x61 &&
        t.engine.h.toList.map BitVec.toNat == (initialHash .a).toList.map BitVec.toNat && t.responses == []) = true := by
  decide +kernel
/-- V6 (64 bytes 0x61) and V14: the byte that completes the block, at the top of the length counter. -/
theorem test_absorb_completes_a_block :
    holdsNext (exec (.absorb 0x61) (stateOf .a (topOfCounter .a) false)) (fun t =>
      t.engine.fill.toNat == 0 && t.engine.len.toNat == 0 && t.engine.h.toList.map BitVec.toNat ==
        [0xdf5bb81c, 0xe81e0626, 0xfb45a894, 0x4fd40f31, 0xb25e6816, 0xd6d499c1, 0xab904929, 0x00635e66]) = true := by
  decide +kernel
/-- V4: 56 bytes 0x61 on variant A, the two-block padding. -/
theorem test_finish_two_blocks :
    responsesOf (exec .finish (stateOf .a (filled .a 56 0x61) true))
      = [toBE 32 0xb35439a4ac6f0948b6d6f9e3c6af0f5f590ce20f1bde7090ef7970686ec6738a] := by
  decide +kernel
/-- V3 through the ports: the empty message on variant B. -/
theorem test_finish_empty_b :
    responsesOf (step ((State.resetOf .b).withFetchWord 16 0x200))
      = [toBE 64 0xcf83e1357eefb8bdf1542850d66d8007d620e4050b5715dc83f4a921d36ce9ce47d0d13c5d85f2b0ff8318d2877eec2f63b931bd47417a81a538327af927da3e] := by
  decide +kernel

/-! ## Witnesses: a state and operands that meet the hypotheses of each statement that has some -/

theorem witness_BitwisePrimitives : 0 < 1 ∧ 1 < 32 ∧ 0 < 63 ∧ 63 < 64 := by decide
theorem witness_BigEndianConversions : 0 < 2 ^ (8 * 0) ∧ 2 ^ 64 - 1 < 2 ^ (8 * 8) := by decide
theorem witness_DecodeAndEncodeAgree :
    (Instr.absorb 0xff).wellFormed = true ∧ decode 0x1ff = .ok (.absorb 0xff) ∧ decode 0x2ff = .ok .finish ∧
      (opcodeRow (.absorb 0)).covers 0x1ff = true ∧ (opcodeRow (.absorb 1)).covers 0x1ff = true := by decide
theorem witness_ParseReadsBigEndianWords :
    (zeros 56 ++ toBE 8 (2 ^ 64 - 1)).length = Variant.a.blockBytes ∧ 2 ^ 64 - 1 < 2 ^ (8 * Variant.a.lengthFieldBytes) ∧
      (zeros 56 ++ toBE 8 (2 ^ 64 - 1)).drop (Variant.a.blockBytes - Variant.a.lengthFieldBytes)
        = toBE Variant.a.lengthFieldBytes (2 ^ 64 - 1) := by decide +kernel
theorem witness_ScheduleFollowsTheRecurrence :
    16 ≤ 16 ∧ 16 < Variant.a.rounds ∧ 79 < Variant.b.rounds ∧ (zeros 128 = zeros Variant.b.blockBytes) := by decide +kernel
theorem witness_PadMakesOneOrTwoWholeBlocks :
    (zeros 55).length < Variant.a.blockBytes ∧ (zeros 56).length < Variant.a.blockBytes ∧
      (zeros 111).length < Variant.b.blockBytes ∧ (zeros 112).length < Variant.b.blockBytes := by decide +kernel
theorem witness_PaddedMessageLayout :
    (zeros 63).length < Variant.a.blockBytes ∧ Variant.a.oneBlockMax < (zeros 63).length ∧
      (zeros 0).length < Variant.a.blockBytes ∧ (zeros 55).length ≤ Variant.a.oneBlockMax := by decide +kernel
theorem witness_LengthFieldIsTheBitLength :
    (BitVec.ofNat Variant.a.lenBits (2 ^ 61 - 1)).toNat < 2 ^ (Variant.a.lenBits - 3) := by decide +kernel
theorem witness_ResponsePortPacksTheDigest :
    (zeros 64).length = Variant.b.digestBytes ∧ (stateOf .a (filled .a 55 0x61) false).pins.rspReady = false := by decide +kernel
theorem witness_CompressIsTheFiveSteps : (filled .a 3 0x61).h = (Engine.initial .a).h := by decide +kernel
theorem witness_BufferPrimitives :
    Memory.wf Variant.a.blockBytes [(62, 1)] = true ∧ 63 + [(0x61 : Byte)].length ≤ Variant.a.blockBytes ∧
      0 + (zeros 64).length ≤ Variant.a.blockBytes := by decide +kernel
theorem witness_BufferIsDeterminedByItsCells :
    Memory.wf Variant.a.blockBytes [(63, 1)] = true ∧
      Memory.wf Variant.a.blockBytes (Memory.memWrite [] 62 [0, 1]) = true ∧
      (Memory.read [(63, 1)] 63 = Memory.read (Memory.memWrite [] 62 [0, 1]) 63) := by decide +kernel
theorem witness_ResetCommandGivesTheInitialState :
    (stateOf .a (filled .a 3 0x61) true).pins.rspReady = true ∧
      (∃ t, exec .finish (stateOf .a (filled .a 3 0x61) true) = .next t) ∧
      ∃ t, exec .reset (stateOf .a (filled .a 3 0x61) true) = .next t := by
  exact ⟨rfl, ⟨_, exec_finish_ready rfl⟩, _, rfl⟩
theorem witness_AbsorbAppendsOneByte :
    (stateOf .a (filled .a 62 0x61) true).engine.wf = true ∧
      (stateOf .a (filled .a 62 0x61) true).engine.fill.toNat ≠ Variant.a.blockBytes - 1 ∧
      (stateOf .b (filled .b 127 0x61) true).engine.wf = true ∧
      (stateOf .b (filled .b 127 0x61) true).engine.fill.toNat = Variant.b.blockBytes - 1 := by decide +kernel
theorem witness_FinishDeliversTheDigestAndResets :
    (stateOf .b (filled .b 112 0) true).pins.rspReady = true ∧
      (stateOf .a (staleInstance .a) true).variant = .a ∧ (stateOf .a (staleInstance .a) true).pins.rspReady = true ∧
      (staleInstance .a).view = (Engine.initial .a).view := by decide +kernel
theorem witness_ResponseHandshake :
    (stateOf .a (filled .a 3 0x61) false).pins.rspReady = false ∧
      ((driven .a (waitingInstance .a) HostPins.idle).engine.phase = .waiting (zeros Variant.a.digestBytes) ∧
        (driven .a (waitingInstance .a) HostPins.idle).sample.pins.rst = false ∧
        (driven .a (waitingInstance .a) HostPins.idle).sample.pins.rspReady = false) ∧
      ((driven .b (waitingInstance .b) ⟨false, false, 0, true, false⟩).engine.phase = .waiting (zeros Variant.b.digestBytes) ∧
        (driven .b (waitingInstance .b) ⟨false, false, 0, true, false⟩).sample.pins.rst = false ∧
        (driven .b (waitingInstance .b) ⟨false, false, 0, true, false⟩).sample.pins.rspReady = true) ∧
      State.reset.rspValid = false := by decide +kernel
theorem witness_CommandFrames :
    (∃ t, exec .reset (stateOf .a (filled .a 3 0x61) true) = .next t) ∧
      (∃ t, exec .finish (stateOf .a (filled .a 3 0x61) true) = .next t) ∧
      ((stateOf .a (filled .a 3 0x61) true).engine.wf = true ∧
        ∃ t, exec (.absorb 0xff) (stateOf .a (filled .a 3 0x61) true) = .next t) ∧
      (∃ m p sc rs k, exec .reset ⟨.b, filled .b 3 0x61, HostPins.idle, [], [], 0⟩ = .next ⟨.b, m, p, sc, rs, k⟩) ∧
      ((filled .b 126 0x61).fill.toNat ≠ Variant.b.blockBytes - 1 ∧
        ∃ m p sc rs k, exec (.absorb 0xff) ⟨.b, filled .b 126 0x61, HostPins.idle, [], [], 0⟩ = .next ⟨.b, m, p, sc, rs, k⟩) := by
  exact ⟨⟨_, rfl⟩, ⟨_, exec_finish_ready rfl⟩, ⟨by decide +kernel, _, rfl⟩, ⟨_, _, _, _, _, rfl⟩,
    by decide +kernel, _, _, _, _, _, rfl⟩
theorem witness_LengthCounterWrapsSilently :
    (stateOf .a (topOfCounter .a) true).engine.fill.toNat = Variant.a.blockBytes - 1 ∧
      (stateOf .a (topOfCounter .a) true).engine.len.toNat = 2 ^ Variant.a.lenBits - Variant.a.blockBytes ∧
      (stateOf .a (topOfCounter .a) true).engine.wf = true ∧
      (stateOf .b (topOfCounter .b) true).engine.wf = true ∧
      (stateOf .b (topOfCounter .b) true).engine.fill.toNat = Variant.b.blockBytes - 1 ∧
      (stateOf .b (topOfCounter .b) true).engine.len.toNat = 2 ^ Variant.b.lenBits - Variant.b.blockBytes := by
  decide +kernel
theorem witness_EveryCommandSequenceCompletes :
    (stateOf .a (filled .a 3 0x61) true).pins.rspReady = true ∧ (stateOf .a (filled .a 3 0x61) true).engine.phase = .ready := by
  decide
theorem witness_StepRunsTheDecodedCommand :
    ((driven .a (filled .a 3 0x61) (offer (.absorb 0x61))).engine.phase = .ready ∧
        (driven .a (filled .a 3 0x61) (offer (.absorb 0x61))).sample.pins.rst = false ∧
        (driven .a (filled .a 3 0x61) (offer (.absorb 0x61))).sample.pins.cmdValid = true ∧
        (driven .a (filled .a 3 0x61) (offer (.absorb 0x61))).sample.pins.rstMidCommand = false ∧
        decode (driven .a (filled .a 3 0x61) (offer (.absorb 0x61))).sample.pins.cmd = .ok (.absorb 0x61)) ∧
      (driven .a (filled .a 3 0x61) (offer .reset)).script = offer .reset :: [] ∧ State.reset.script = [] ∧
      decodeTableWord 16 0x161 = some (.absorb 0x61) := by decide +kernel
theorem witness_ReservedWordIsRefused :
    (driven .a (filled .a 3 0x61) ⟨false, true, 0x300, true, false⟩).engine.phase = .ready ∧
      (driven .a (filled .a 3 0x61) ⟨false, true, 0x300, true, false⟩).sample.pins.rst = false ∧
      (driven .a (filled .a 3 0x61) ⟨false, true, 0x300, true, false⟩).sample.pins.cmdValid = true ∧
      opField (driven .a (filled .a 3 0x61) ⟨false, true, 0x300, true, false⟩).sample.pins.cmd = 0b11 ∧
      (0x3a5 : BitVec 10) ∈ [0x161, 0x3a5] ∧ opField 0x3a5 = 0b11 ∧ opField 0x2ff ≠ 0b11 := by decide +kernel
theorem witness_WordOfferedWhileBusyIsIgnored :
    (stateOf .a (waitingInstance .a) true).cmdReady = false ∧ (stateOf .b (inResetInstance .b) true).cmdReady = false := by
  decide
theorem witness_HardwareResetWins :
    (driven .a (filled .a 3 0x61) ⟨true, true, 0x200, true, false⟩).sample.pins.rst = true ∧
      (∃ t, step (driven .a (waitingInstance .a) ⟨true, true, 0x200, true, false⟩) = .next t) ∧
      (stateOf .a (inResetInstance .a) true).engine.phase = .inReset ∧
      (stateOf .a (inResetInstance .a) true).sample.pins.rst = false := by
  exact ⟨rfl, ⟨_, rfl⟩, rfl, rfl⟩
theorem witness_AbandonedCommandLeavesTheInitialState :
    ((driven .a (filled .a 56 0x61) ⟨false, true, 0x200, false, true⟩).engine.phase = .ready ∧
        (driven .a (filled .a 56 0x61) ⟨false, true, 0x200, false, true⟩).sample.pins.rst = false ∧
        (driven .a (filled .a 56 0x61) ⟨false, true, 0x200, false, true⟩).sample.pins.cmdValid = true ∧
        (driven .a (filled .a 56 0x61) ⟨false, true, 0x200, false, true⟩).sample.pins.rstMidCommand = true ∧
        decode (driven .a (filled .a 56 0x61) ⟨false, true, 0x200, false, true⟩).sample.pins.cmd = .ok .finish) ∧
      (driven .a (waitingInstance .a) ⟨true, false, 0, true, false⟩).engine.phase = .waiting (zeros Variant.a.digestBytes) ∧
      (driven .a (waitingInstance .a) ⟨true, false, 0, true, false⟩).sample.pins.rst = true := by decide +kernel
theorem witness_IdleInstanceKeepsItsState :
    (driven .a (filled .a 3 0x61) ⟨false, false, 0x200, true, false⟩).engine.phase = .ready ∧
      (driven .a (filled .a 3 0x61) ⟨false, false, 0x200, true, false⟩).sample.pins.rst = false ∧
      (driven .a (filled .a 3 0x61) ⟨false, false, 0x200, true, false⟩).sample.pins.cmdValid = false := by decide
theorem witness_ThreeResetsLeaveOneView :
    (stateOf .b (filled .b 127 0x61) true).engine.phase = .ready ∧
      (stateOf .b (filled .b 127 0x61) true).pins.rspReady = true := by decide
theorem witness_VariantNeverChanges : ∃ t, step (driven .b (filled .b 3 0x61) (offer (.absorb 0x61))) = .next t := ⟨_, rfl⟩
theorem witness_AdmittedHostNeverStopsTheMachine :
    (driven .a (filled .a 3 0x61) ⟨false, true, 0x2ff, true, false⟩).admitted = true ∧
      (driven .a (filled .a 3 0x61) ⟨false, false, 0x3ff, true, false⟩).admitted = true := by decide +kernel
theorem witness_StepKeepsStatesWellFormed :
    (driven .b (waitingInstance .b) ⟨false, false, 0, true, false⟩).wf = true ∧
      ∃ t, step (driven .b (waitingInstance .b) ⟨false, false, 0, true, false⟩) = .next t :=
  ⟨by decide +kernel, _, rfl⟩
theorem witness_StepKeepsLengthInWholeBlocks :
    ((driven .a (topOfCounter .a) (offer (.absorb 0x61))).engine.phase.rspValid = false →
        (driven .a (topOfCounter .a) (offer (.absorb 0x61))).engine.len.toNat % Variant.a.blockBytes = 0) ∧
      ∃ t, step (driven .a (topOfCounter .a) (offer (.absorb 0x61))) = .next t :=
  ⟨by decide +kernel, _, rfl⟩

/-- An instance that has absorbed nothing. -/
theorem initial_absorbed (v : Variant) : (Engine.initial v).Absorbed [] := by
  cases v <;> exact ⟨rfl, rfl, rfl, rfl, rfl, rfl⟩

/-- An instance that has absorbed 63 bytes, all but the last of a block. -/
theorem filled_absorbed : (filled .a 63 0x61).Absorbed (List.replicate 63 0x61) :=
  ⟨rfl, by decide +kernel, by decide +kernel, by decide +kernel, by decide +kernel, by decide +kernel⟩

theorem witness_AbsorbExtendsTheMessage :
    (stateOf .a (filled .a 63 0x61) true).engine.Absorbed (List.replicate 63 0x61) ∧
      (stateOf .a (filled .a 63 0x61) true).engine.wf = true ∧ (stateOf .a (filled .a 63 0x61) true).engine.phase = .ready :=
  ⟨filled_absorbed, by decide +kernel, rfl⟩
theorem witness_FinishAnswersTheDigestOfTheMessage :
    (stateOf .a (filled .a 63 0x61) true).engine.Absorbed (List.replicate 63 0x61) ∧
      (stateOf .a (filled .a 63 0x61) true).pins.rspReady = true :=
  ⟨filled_absorbed, rfl⟩
theorem witness_DigestEffect : (stateOf .b (filled .b 127 0x61) true).engine.wf = true := by decide +kernel
theorem witness_HashAnswersTheDigestFromAnyState :
    (stateOf .b (topOfCounter .b) true).engine.wf = true ∧ (stateOf .b (topOfCounter .b) true).engine.phase = .ready ∧
      (stateOf .b (topOfCounter .b) true).pins.rspReady = true := by decide +kernel
/-- The script of a host that sends `HASH` of three bytes and then asserts `rst`. -/
def hashHost (v : Variant) : State :=
  ⟨v, filled v 7 0x78, HostPins.idle, offerAll (hashCommands [0x61, 0x62, 0x63]) ++ [⟨true, false, 0, false, false⟩], [], 0⟩
theorem witness_HashThroughThePorts :
    (hashHost .b).engine.wf = true ∧ (hashHost .b).engine.phase = .ready ∧
      (hashHost .b).script = offerAll (hashCommands [0x61, 0x62, 0x63]) ++ [⟨true, false, 0, false, false⟩] := by decide +kernel
theorem witness_StreamingEquivalence :
    (stateOf .b (Engine.initial .b) true).engine.Absorbed [] ∧ (stateOf .b (Engine.initial .b) true).pins.rspReady = true :=
  ⟨initial_absorbed .b, rfl⟩
theorem witness_InstanceReuse :
    (stateOf .a (topOfCounter .a) true).engine.wf = true ∧ (stateOf .a (topOfCounter .a) true).pins.rspReady = true := by
  decide +kernel
theorem witness_RunsDependOnTheAbstractStateOnly :
    (Engine.initial .a).wf = true ∧ (staleInstance .a).wf = true ∧ (Engine.initial .a).view = (staleInstance .a).view ∧
      Engine.initial .a ≠ staleInstance .a ∧
      ∃ t, Host.Core.run core 1 (⟨.a, Engine.initial .a, HostPins.idle, [offer (.absorb 0x61)], [], 0⟩ : State) = .next t :=
  ⟨by decide +kernel, by decide +kernel, by decide +kernel, by decide +kernel, _, rfl⟩

end Sys2Proof.Tests
end

-- Byte conversions (spec/00_scope.md R13)
section
/-! SUPPORT. BE_n and FromBE: equations, bounds, and each as the inverse of the other. -/

namespace Sys2Proof.Machine

theorem two_pow_mul_succ (n : Nat) : 2 ^ (8 * (n + 1)) = 2 ^ (8 * n) * 2 ^ 8 := by
  rw [Nat.mul_succ, Nat.pow_add]

theorem foldl_mul_add_toNat (b : List Byte) (acc : Nat) :
    b.foldl (fun acc x => acc * 256 + x.toNat) acc = acc * 2 ^ (8 * b.length) + fromBE b := by
  unfold fromBE
  induction b generalizing acc with
  | nil => simp
  | cons x b ih =>
    rw [List.foldl_cons, List.foldl_cons, ih, ih (0 * 256 + x.toNat), List.length_cons, two_pow_mul_succ]
    ring

@[simp] theorem fromBE_nil : fromBE [] = 0 := rfl

/-- The first byte has the largest weight (R13). -/
theorem fromBE_cons (x : Byte) (b : List Byte) : fromBE (x :: b) = x.toNat * 2 ^ (8 * b.length) + fromBE b := by
  rw [fromBE, List.foldl_cons, foldl_mul_add_toNat, Nat.zero_mul, Nat.zero_add]

theorem fromBE_lt (b : List Byte) : fromBE b < 2 ^ (8 * b.length) := by
  induction b with
  | nil => simp
  | cons x b ih =>
    rw [fromBE_cons, List.length_cons, two_pow_mul_succ]
    calc x.toNat * 2 ^ (8 * b.length) + fromBE b
        < (x.toNat + 1) * 2 ^ (8 * b.length) := by rw [Nat.add_one_mul x.toNat]; exact Nat.add_lt_add_left ih _
      _ ≤ 2 ^ 8 * 2 ^ (8 * b.length) := Nat.mul_le_mul_right _ x.isLt
      _ = _ := Nat.mul_comm _ _

/-- FromBE as a sum over the places of the sequence, each byte with its weight (R13). -/
theorem fromBE_eq_sum (b : List Byte) :
    fromBE b = ((List.range b.length).map fun i => (b.getD i 0).toNat * 2 ^ (8 * (b.length - 1 - i))).sum := by
  induction b with
  | nil => simp
  | cons x b ih =>
    rw [fromBE_cons, ih, List.length_cons, List.range_succ_eq_map, List.map_cons, List.sum_cons, List.map_map]
    simp [Function.comp_def, Nat.sub_sub, Nat.add_comm 1]

/-- Byte `i` of `BE_n(x)`, counted from the most significant one (R13). -/
theorem toBE_getD_toNat {n i : Nat} (x : Nat) (h : i < n) :
    ((toBE n x).getD i 0).toNat = x / 2 ^ (8 * (n - 1 - i)) % 2 ^ 8 := by
  induction n generalizing i with
  | zero => omega
  | succ n ih =>
    cases i with
    | zero => simp [toBE, Nat.shiftRight_eq_div_pow]
    | succ i =>
      have hexp : n + 1 - 1 - (i + 1) = n - 1 - i := by omega
      rw [toBE, List.getD_cons_succ, ih (by omega), hexp]

/-- `BE_n` keeps the low `8n` bits of a number, whatever lies above them. -/
theorem fromBE_toBE (n x : Nat) : fromBE (toBE n x) = x % 2 ^ (8 * n) := by
  induction n with
  | zero => simp [toBE, Nat.mod_one]
  | succ n ih =>
    rw [toBE, fromBE_cons, ih, toBE_length, BitVec.toNat_ofNat, Nat.shiftRight_eq_div_pow, two_pow_mul_succ, Nat.mod_mul]
    ring

/-- Two byte sequences of one length that stand for the same number are equal. -/
theorem eq_of_fromBE_eq {a b : List Byte} (hl : a.length = b.length) (h : fromBE a = fromBE b) : a = b := by
  induction a generalizing b with
  | nil => exact (List.length_eq_zero_iff.1 hl.symm).symm
  | cons x a ih =>
    cases b with
    | nil => simp at hl
    | cons y b =>
      have hl' : a.length = b.length := by simpa using hl
      have ha : fromBE a < 2 ^ (8 * b.length) := hl' ▸ fromBE_lt a
      have hb := fromBE_lt b
      rw [fromBE_cons, fromBE_cons, hl', Nat.mul_comm, Nat.mul_comm y.toNat] at h
      have hpos : 0 < 2 ^ (8 * b.length) := Nat.two_pow_pos _
      have hhead : x = y := BitVec.eq_of_toNat_eq <| by
        have hdiv := congrArg (· / 2 ^ (8 * b.length)) h
        rwa [Nat.mul_add_div hpos, Nat.mul_add_div hpos, Nat.div_eq_of_lt ha, Nat.div_eq_of_lt hb] at hdiv
      subst hhead
      rw [ih hl' (Nat.add_left_cancel h)]

theorem toBE_fromBE (b : List Byte) : toBE b.length (fromBE b) = b :=
  eq_of_fromBE_eq (toBE_length _ _) <| by rw [fromBE_toBE, Nat.mod_eq_of_lt (fromBE_lt b)]

/-- Settles O7: the bytes of `BE_n`, the sum of `FromBE`, and both inverses. -/
theorem bigEndianConversions : Obligations.BigEndianConversions := by
  refine ⟨fun n x hx => ⟨toBE_length n x, fun i hi => toBE_getD_toNat x hi, ?_⟩,
    fun b => ⟨fromBE_eq_sum b, fromBE_lt b, toBE_fromBE b⟩⟩
  rw [fromBE_toBE, Nat.mod_eq_of_lt hx]

end Sys2Proof.Machine
end

-- Bitwise primitives (spec/00_scope.md R11)
section
/-! SUPPORT. ROTR and SHR as numbers and bit by bit, and the range of the rotation and shift amounts. -/

namespace Sys2Proof.Machine

section
variable {w n : Nat} (x : BitVec w)

theorem rotr_eq_rotateRight (hn : n < w) : rotr n x = x.rotateRight n := by
  rw [BitVec.rotateRight_def, Nat.mod_eq_of_lt hn, rotr]

/-- Bit `i` of `ROTR_n(x)` is the bit `n` places above it, counted around the word (R11). -/
theorem getLsbD_rotr {i : Nat} (hn : n < w) (hi : i < w) : (rotr n x).getLsbD i = x.getLsbD ((i + n) % w) := by
  rw [rotr_eq_rotateRight x hn, BitVec.getLsbD_rotateRight, Nat.mod_eq_of_lt hn]
  by_cases hlow : i < w - n
  · rw [decide_eq_true hlow, cond_true, Nat.mod_eq_of_lt (by omega), Nat.add_comm]
  · have hwrap : (i + n) % w = i - (w - n) := by
      rw [Nat.mod_eq_sub_mod (by omega), Nat.mod_eq_of_lt (by omega)]
      omega
    rw [hwrap, decide_eq_false hlow, cond_false, decide_eq_true hi, Bool.true_and]

theorem toNat_rotr : (rotr n x).toNat = (x.toNat / 2 ^ n) ||| (x.toNat * 2 ^ (w - n) % 2 ^ w) := by
  simp [rotr, Nat.shiftRight_eq_div_pow, Nat.shiftLeft_eq]

theorem toNat_shr : (shr n x).toNat = x.toNat / 2 ^ n := by
  rw [shr, BitVec.toNat_ushiftRight, Nat.shiftRight_eq_div_pow]

end

/-- Every rotation and shift amount of a variant lies strictly between 0 and the word width (R11). -/
theorem amounts_in_range (v : Variant) :
    ∀ a ∈ [smallSigma0Amounts v, smallSigma1Amounts v, bigSigma0Amounts v, bigSigma1Amounts v],
      ∀ n ∈ [a.first, a.second, a.third], 0 < n ∧ n < v.wordBits := by
  cases v <;> decide

/-- Settles O6: the rotation through the library's, the amounts by looking at the four rows of each variant. -/
theorem bitwisePrimitives : Obligations.BitwisePrimitives := by
  refine ⟨fun w n x _ hn => ⟨fun i hi => getLsbD_rotr x hn hi, toNat_rotr x, toNat_shr x⟩,
    fun w x y => ⟨BitVec.toNat_not, fun i _ => ⟨BitVec.getLsbD_and, BitVec.getLsbD_or, BitVec.getLsbD_xor⟩⟩,
    amounts_in_range⟩

end Sys2Proof.Machine
end

-- The variant of an instance (spec/00_scope.md R6)
section
/-! SUPPORT. No operation of a step changes the variant. -/

namespace Sys2Proof.Machine

@[simp] theorem State.takeResponse_variant (s : State) : s.takeResponse.variant = s.variant := by
  unfold State.takeResponse
  split <;> rfl

theorem exec_variant {i : Instr} {s t : State} (h : exec i s = .next t) : t.variant = s.variant := by
  obtain ⟨m, rs, he⟩ := exec_next i s
  rw [he] at h
  cases h
  rfl

/-- Settles O36, over the ways a step can leave a next state. -/
theorem variantNeverChanges : Obligations.VariantNeverChanges := by
  intro s t h
  obtain rfl | ⟨-, rfl⟩ | ⟨d, -, -, rfl⟩ | rfl | ⟨-, -, i, -, he⟩ := step_cases h
  · rfl
  · rfl
  · exact State.takeResponse_variant s.sample
  · rfl
  · exact (exec_variant he).trans (State.sample_variant s)

end Sys2Proof.Machine
end

-- Sizes of the variants (spec/00_scope.md R7)
section
/-! SUPPORT. The sizes of a variant and the relations between them. -/

namespace Sys2Proof

theorem Variant.wordBytes_mul_eight (v : Variant) : v.wordBytes * 8 = v.wordBits := by cases v <;> rfl

/-- A block is sixteen words (R7, R80). -/
theorem Variant.blockBytes_div_wordBytes (v : Variant) : v.blockBytes / v.wordBytes = 16 := by cases v <;> rfl

/-- A digest is eight words (R7, R104). -/
theorem Variant.digestBytes_eq (v : Variant) : v.digestBytes = 8 * v.wordBytes := by cases v <;> rfl

@[simp] theorem Words8.toList_length {v : Variant} (x : Words8 v) : x.toList.length = 8 := rfl

/-- Settles O1: the rows of the table by reading off each size, the relations from the lemmas about all variants. -/
theorem sizesOfTheVariants : Obligations.SizesOfTheVariants := by
  refine ⟨⟨rfl, rfl⟩, ⟨rfl, rfl⟩, ⟨rfl, rfl⟩, ⟨rfl, rfl⟩, ⟨rfl, rfl⟩, ⟨rfl, rfl⟩, ⟨rfl, rfl⟩, ⟨rfl, rfl⟩, fun v => ?_⟩
  exact ⟨v.wordBytes_mul_eight, v.blockBytes_div_wordBytes, v.digestBytes_eq, v.oneBlockMax_add, v.two_pow_fillBits,
    Machine.roundConstants_length v, Words8.toList_length _⟩

end Sys2Proof
end

-- The absorbed message (spec/10_state.md R25; spec/40_streaming_buffer.md R68, R73)
section
/-! SUPPORT. The pending bytes after each update of an instance, what an absorbed byte does to hash state, fill, length and
pending bytes, and the message an instance stands for. -/

namespace Sys2Proof.Machine

section
variable (v : Variant) {msg : List Byte} {b : Byte}

/-- A byte that does not fill the last block goes to the remainder. -/
theorem completeBlocks_concat_of_lt (h : (remainder v msg).length + 1 < v.blockBytes) :
    completeBlocks v (msg ++ [b]) = completeBlocks v msg ∧ remainder v (msg ++ [b]) = remainder v msg ++ [b] := by
  obtain ⟨hblocks, hrem⟩ := completeBlocks_append v msg [b]
  obtain ⟨hnone, hall⟩ := completeBlocks_of_lt v (x := remainder v msg ++ [b]) (by simpa using h)
  rw [hblocks, hrem, hnone, hall, List.append_nil]
  exact ⟨rfl, rfl⟩

/-- A byte that fills the last block makes it one more complete block and leaves no remainder. -/
theorem completeBlocks_concat_of_eq (h : (remainder v msg).length + 1 = v.blockBytes) :
    completeBlocks v (msg ++ [b]) = completeBlocks v msg ++ [remainder v msg ++ [b]] ∧
      remainder v (msg ++ [b]) = [] := by
  obtain ⟨hblocks, hrem⟩ := completeBlocks_append v msg [b]
  obtain ⟨hone, hnil⟩ := completeBlocks_of_eq v (x := remainder v msg ++ [b]) (by simpa using h)
  rw [hblocks, hrem, hone, hnil]
  exact ⟨rfl, rfl⟩

end

section
variable {v : Variant} {m : Engine v} {b : Byte} {msg : List Byte}

@[simp] theorem Engine.pending_length (m : Engine v) : m.pending.length = m.fill.toNat := Memory.memRead_length _ _ _

theorem Engine.pending_of_fill_zero (h : m.fill = 0) : m.pending = [] := by
  simp [Engine.pending, h, Memory.memRead]

theorem Engine.toNat_fill_add_one (h : m.fill.toNat ≠ v.blockBytes - 1) : (m.fill + 1).toNat = m.fill.toNat + 1 := by
  have hlt := m.fill_lt
  have hfit : m.fill.toNat + 1 < 2 ^ v.fillBits := by rw [v.two_pow_fillBits]; omega
  simp [BitVec.toNat_add, Nat.mod_eq_of_lt hfit]

theorem Engine.absorbByte_canonical (h : Memory.wf v.blockBytes m.buf = true) :
    Memory.wf v.blockBytes (m.absorbByte b).buf = true := by
  rw [Engine.absorbByte_buf]
  exact Memory.wf_write m.fill_lt h

/-- A byte that does not complete the block is one pending byte more, and the hash state and the length stay (R68). -/
theorem Engine.absorbByte_fields_mid (hbuf : Memory.wf v.blockBytes m.buf = true)
    (h : m.fill.toNat ≠ v.blockBytes - 1) :
    (m.absorbByte b).h = m.h ∧ (m.absorbByte b).fill = m.fill + 1 ∧ (m.absorbByte b).len = m.len ∧
      (m.absorbByte b).pending = m.pending ++ [b] := by
  rw [Engine.absorbByte_mid h]
  refine ⟨rfl, rfl, rfl, ?_⟩
  rw [Engine.pending, Engine.toNat_fill_add_one h]
  exact Memory.memRead_write_next hbuf

/-- With all but the last byte of the block pending, the store of one byte fills the buffer with the pending bytes and it. -/
theorem Engine.memRead_storeByte_full (hbuf : Memory.wf v.blockBytes m.buf = true)
    (h : m.fill.toNat = v.blockBytes - 1) :
    (m.storeByte b).buf.memRead 0 v.blockBytes = m.pending ++ [b] := by
  have hfull : v.blockBytes = m.fill.toNat + 1 := by have := v.blockBytes_pos; omega
  rw [hfull, Engine.storeByte_buf]
  exact Memory.memRead_write_next hbuf

/-- The byte that completes the block: the pending bytes and it are compressed, nothing is pending, and the length grows by a
block (R68). -/
theorem Engine.absorbByte_fields_last (hbuf : Memory.wf v.blockBytes m.buf = true)
    (h : m.fill.toNat = v.blockBytes - 1) :
    (m.absorbByte b).h = compressHash m.h (m.pending ++ [b]) ∧ (m.absorbByte b).fill = 0 ∧
      (m.absorbByte b).len = m.len + BitVec.ofNat v.lenBits v.blockBytes ∧ (m.absorbByte b).pending = [] := by
  rw [Engine.absorbByte_last h]
  refine ⟨?_, rfl, rfl, Engine.pending_of_fill_zero rfl⟩
  rw [Engine.completeBlock_h, Engine.memRead_storeByte_full hbuf h, Engine.storeByte_h]

/-- The fill index is the length of the pending bytes, so it needs no clause of its own; and the length counter counts the
blocks compressed. -/
theorem Engine.absorbed_iff :
    m.Absorbed msg ↔ m.phase = .ready ∧ Memory.wf v.blockBytes m.buf = true ∧
      m.h = foldBlocks (initialHash v) (completeBlocks v msg) ∧ m.pending = remainder v msg ∧
      m.len = BitVec.ofNat v.lenBits (v.blockBytes * (completeBlocks v msg).length) := by
  rw [completeBlocks_length]
  constructor
  · rintro ⟨hready, hbuf, hhash, -, hpending, hlen⟩
    exact ⟨hready, hbuf, hhash, hpending, hlen⟩
  · rintro ⟨hready, hbuf, hhash, hpending, hlen⟩
    have hfill : m.fill.toNat = msg.length % v.blockBytes := by
      rw [← Engine.pending_length, hpending, remainder_length]
    exact ⟨hready, hbuf, hhash, hfill, hpending, hlen⟩

/-- An instance in the initial state of R31, between commands, has absorbed the empty message, whatever its scratch holds. -/
theorem Engine.absorbed_nil (hready : m.phase = .ready) (hbuf : Memory.wf v.blockBytes m.buf = true)
    (hhash : m.h = initialHash v) (hfill : m.fill = 0) (hlen : m.len = 0) : m.Absorbed [] := by
  obtain ⟨hblocks, hrem⟩ := completeBlocks_of_lt v (x := []) v.blockBytes_pos
  rw [Engine.absorbed_iff, hblocks, hrem]
  exact ⟨hready, hbuf, hhash, Engine.pending_of_fill_zero hfill, hlen⟩

/-- `ABSORB` appends its byte to the message an instance stands for (R25, R73). -/
theorem Engine.Absorbed.absorbByte (h : m.Absorbed msg) : (m.absorbByte b).Absorbed (msg ++ [b]) := by
  obtain ⟨hready, hbuf, hhash, hpending, hlen⟩ := Engine.absorbed_iff.1 h
  have hlt := m.fill_lt
  have hrem : (remainder v msg).length = m.fill.toNat := by rw [← hpending, Engine.pending_length]
  rw [Engine.absorbed_iff, Engine.absorbByte_phase]
  refine ⟨hready, Engine.absorbByte_canonical hbuf, ?_⟩
  by_cases hlast : m.fill.toNat = v.blockBytes - 1
  · obtain ⟨hh', -, hlen', hpending'⟩ := Engine.absorbByte_fields_last (b := b) hbuf hlast
    obtain ⟨hblocks, hnil⟩ := completeBlocks_concat_of_eq v (b := b) (msg := msg) (by omega)
    rw [hh', hlen', hpending', hblocks, hnil, foldBlocks_append, hhash, hpending, hlen, List.length_append,
      List.length_singleton, Nat.mul_succ, BitVec.ofNat_add]
    exact ⟨rfl, rfl, rfl⟩
  · obtain ⟨hh', -, hlen', hpending'⟩ := Engine.absorbByte_fields_mid (b := b) hbuf hlast
    obtain ⟨hblocks, hconcat⟩ := completeBlocks_concat_of_lt v (b := b) (msg := msg) (by omega)
    rw [hh', hlen', hpending', hblocks, hconcat, hpending]
    exact ⟨hhash, rfl, hlen⟩

end

/-- Settles O41: a byte goes to the remainder or completes one more block; `RESET` leaves the initial state. -/
theorem absorbExtendsTheMessage : Obligations.AbsorbExtendsTheMessage := by
  refine ⟨fun s msg b h => ⟨_, rfl, h.absorbByte⟩, fun s hwf hready => ⟨_, rfl, ?_⟩⟩
  exact Engine.absorbed_nil hready ((Engine.wf_iff _).1 hwf).1 rfl rfl rfl

/-- Settles O39: nothing is listed in the buffer, no script and no response is there, and the engine is in the initial state. -/
theorem resetStateIsWellFormed : Obligations.ResetStateIsWellFormed :=
  fun _ => ⟨rfl, rfl, Engine.absorbed_nil rfl rfl rfl rfl rfl⟩

end Sys2Proof.Machine
end

-- Runs and the abstract state (spec/10_state.md R32, R33; spec/20_memory.md R37)
section
/-! SUPPORT. Instances that differ in stale cells and scratch only, and the simulation of one by the other: through each
operation, each command, a port event, a step and a run. -/

namespace Sys2Proof.Machine

/-- Two instances with canonical buffers and one abstract state: they differ in the cells of `BUF` at or above `FILL`, in
`REG` and in `SCHED` at most (R33). -/
structure Engine.Alike {v : Variant} (m m' : Engine v) : Prop where
  canonical : Memory.wf v.blockBytes m.buf = true
  canonical' : Memory.wf v.blockBytes m'.buf = true
  view_eq : m.view = m'.view

/-- Two states with one host, one record of responses and alike instances of variant `v`. -/
inductive State.Alike (v : Variant) : State → State → Prop
  | intro {m m' : Engine v} (h : m.Alike m') (p : HostPins) (sc : List HostPins) (rs : List (List Byte)) (n : Nat) :
      State.Alike v ⟨v, m, p, sc, rs, n⟩ ⟨v, m', p, sc, rs, n⟩

/-- Two outcomes that are alike next states or the same refusal. -/
def AlikeOutcomes (v : Variant) (o o' : Host.Outcome State Fault Refusal) : Prop :=
  (∃ t t', o = .next t ∧ o' = .next t' ∧ State.Alike v t t') ∨ ∃ r, o = .refused r ∧ o' = .refused r

section
variable {v : Variant} {m m' : Engine v}

/-- The abstract state fixes `FILL`, the number of pending bytes, and with it `LEN`. -/
theorem Engine.view_eq_iff :
    m.view = m'.view ↔
      m.h = m'.h ∧ m.fill = m'.fill ∧ m.len = m'.len ∧ m.pending = m'.pending ∧ m.phase = m'.phase := by
  simp only [Engine.view, View.mk.injEq]
  constructor
  · rintro ⟨hh, hpending, htotal, hphase⟩
    have hfill : m.fill = m'.fill := BitVec.eq_of_toNat_eq <| by
      rw [← Engine.pending_length, hpending, Engine.pending_length]
    have hlen : m.len = m'.len := by
      rw [Engine.totalLength, Engine.totalLength, hfill] at htotal
      exact add_right_cancel htotal
    exact ⟨hh, hfill, hlen, hpending, hphase⟩
  · rintro ⟨hh, hfill, hlen, hpending, hphase⟩
    exact ⟨hh, hpending, by rw [Engine.totalLength, Engine.totalLength, hfill, hlen], hphase⟩

theorem Engine.Alike.phase_eq (h : m.Alike m') : m.phase = m'.phase := congrArg View.phase h.view_eq

theorem Engine.Alike.withPhase (h : m.Alike m') (p : Phase) :
    Engine.Alike { m with phase := p } { m' with phase := p } := by
  obtain ⟨hh, hfill, hlen, hpending, -⟩ := Engine.view_eq_iff.1 h.view_eq
  exact ⟨h.canonical, h.canonical', Engine.view_eq_iff.2 ⟨hh, hfill, hlen, hpending, rfl⟩⟩

theorem Engine.Alike.initialise (h : m.Alike m') : m.initialise.Alike m'.initialise := by
  have hnone (x : Engine v) : x.initialise.pending = [] := Engine.pending_of_fill_zero rfl
  exact ⟨h.canonical, h.canonical', Engine.view_eq_iff.2 ⟨rfl, rfl, rfl, by rw [hnone, hnone], h.phase_eq⟩⟩

/-- A byte stored at `FILL` is pending in both; a completed block holds pending bytes only, so no stale cell is compressed. -/
theorem Engine.Alike.absorbByte (h : m.Alike m') (b : Byte) : (m.absorbByte b).Alike (m'.absorbByte b) := by
  obtain ⟨hh, hfill, hlen, hpending, hphase⟩ := Engine.view_eq_iff.1 h.view_eq
  refine ⟨Engine.absorbByte_canonical h.canonical, Engine.absorbByte_canonical h.canonical', Engine.view_eq_iff.2 ?_⟩
  by_cases hlast : m.fill.toNat = v.blockBytes - 1
  · obtain ⟨h1, f1, l1, p1⟩ := Engine.absorbByte_fields_last (b := b) h.canonical hlast
    obtain ⟨h2, f2, l2, p2⟩ := Engine.absorbByte_fields_last (b := b) h.canonical' (hfill ▸ hlast)
    simp [h1, f1, l1, p1, h2, f2, l2, p2, hh, hlen, hpending, hphase]
  · obtain ⟨h1, f1, l1, p1⟩ := Engine.absorbByte_fields_mid (b := b) h.canonical hlast
    obtain ⟨h2, f2, l2, p2⟩ := Engine.absorbByte_fields_mid (b := b) h.canonical' (hfill ▸ hlast)
    simp [h1, f1, l1, p1, h2, f2, l2, p2, hh, hfill, hlen, hpending, hphase]

/-- `FINISH` pads the pending bytes and the total, which are parts of the abstract state. -/
theorem Engine.Alike.finishMessage (h : m.Alike m') : m.finishMessage.Alike m'.finishMessage := by
  obtain ⟨hh, hfill, hlen, hpending, -⟩ := Engine.view_eq_iff.1 h.view_eq
  have htotal : m.totalLength = m'.totalLength := congrArg View.total h.view_eq
  obtain ⟨h1, b1, f1, l1, p1⟩ := Engine.finishMessage_fields m
  obtain ⟨h2, b2, f2, l2, p2⟩ := Engine.finishMessage_fields m'
  have hpend (x : Engine v) (hb : x.finishMessage.buf = x.buf) (hf : x.finishMessage.fill = x.fill) :
      x.finishMessage.pending = x.pending := by rw [Engine.pending, hb, hf, Engine.pending]
  refine ⟨b1 ▸ h.canonical, b2 ▸ h.canonical', Engine.view_eq_iff.2 ?_⟩
  rw [hpend m b1 f1, hpend m' b2 f2, h1, f1, l1, p1, h2, f2, l2, p2, hh, hfill, hpending, htotal]
  exact ⟨rfl, rfl, rfl, rfl, rfl⟩

end

section
variable {v : Variant} {s s' : State}

theorem State.Alike.hardwareReset (h : State.Alike v s s') : State.Alike v s.hardwareReset s'.hardwareReset := by
  cases h with
  | intro h p sc rs n => exact .intro (h.initialise.withPhase .inReset) p sc rs n

theorem State.Alike.releaseReset (h : State.Alike v s s') : State.Alike v s.releaseReset s'.releaseReset := by
  cases h with
  | intro h p sc rs n => exact .intro (h.withPhase .ready) p sc rs n

theorem State.Alike.sample (h : State.Alike v s s') : State.Alike v s.sample s'.sample := by
  cases h with
  | intro h p sc rs n => exact .intro h _ _ rs _

theorem State.Alike.takeResponse (h : State.Alike v s s') : State.Alike v s.takeResponse s'.takeResponse := by
  cases h with
  | @intro m m' h p sc rs n =>
    have hphase := h.phase_eq
    unfold State.takeResponse
    dsimp only
    rw [← hphase]
    cases m.phase with
    | inReset => exact .intro h p sc rs n
    | ready => exact .intro h p sc rs n
    | waiting digest => exact .intro (h.initialise.withPhase .ready) p sc (rs ++ [digest]) n

theorem State.Alike.portEvent_eq (h : State.Alike v s s') :
    portEvent s.pins s.engine.phase = portEvent s'.pins s'.engine.phase := by
  cases h with
  | intro h p sc rs n => exact congrArg (portEvent p) h.phase_eq

theorem AlikeOutcomes.next {t t' : State} (h : State.Alike v t t') : AlikeOutcomes v (.next t) (.next t') :=
  .inl ⟨t, t', rfl, rfl, h⟩

theorem AlikeOutcomes.refused (r : Refusal) : AlikeOutcomes v (.refused r) (.refused r) := .inr ⟨r, rfl, rfl⟩

theorem exec_alike (i : Instr) (h : State.Alike v s s') : AlikeOutcomes v (exec i s) (exec i s') := by
  cases h with
  | @intro m m' h p sc rs n =>
    cases i with
    | reset => exact .next (.intro h.initialise p sc rs n)
    | absorb b => exact .next (.intro (h.absorbByte b) p sc rs n)
    | finish =>
      have hwait := State.Alike.intro h.finishMessage p sc rs n
      show AlikeOutcomes v (execFinish _) (execFinish _)
      unfold execFinish
      dsimp only
      split
      · exact .next hwait.takeResponse
      · exact .next hwait

theorem acceptCommand_alike (w : BitVec 10) (h : State.Alike v s s') :
    AlikeOutcomes v (acceptCommand w s) (acceptCommand w s') := by
  unfold acceptCommand
  split
  · exact exec_alike _ h
  · exact .refused _

theorem abandonCommand_alike (w : BitVec 10) (h : State.Alike v s s') :
    AlikeOutcomes v (abandonCommand w s) (abandonCommand w s') := by
  unfold abandonCommand
  split
  · exact .next h.hardwareReset
  · exact .refused _

theorem runEvent_alike (e : PortEvent) (h : State.Alike v s s') : AlikeOutcomes v (runEvent e s) (runEvent e s') := by
  cases e with
  | hardwareReset => exact .next h.hardwareReset
  | releaseReset => exact .next h.releaseReset
  | transfer => exact .next h.takeResponse
  | hold => exact .next h
  | idle => exact .next h
  | accept w => exact acceptCommand_alike w h
  | abandon w => exact abandonCommand_alike w h

theorem step_alike (h : State.Alike v s s') : AlikeOutcomes v (step s) (step s') := by
  unfold step
  rw [← h.sample.portEvent_eq]
  exact runEvent_alike _ h.sample

/-- Alike states run to alike outcomes (R33). -/
theorem run_alike (k : Nat) (h : State.Alike v s s') :
    AlikeOutcomes v (Host.Core.run core k s) (Host.Core.run core k s') := by
  induction k generalizing s s' with
  | zero => exact .next h
  | succ k ih =>
    obtain ⟨t, t', hs, hs', ht⟩ | ⟨r, hs, hs'⟩ := step_alike h
    · rw [run_succ_of_next (M := core) hs, run_succ_of_next (M := core) hs']
      exact ih ht
    · rw [run_succ_of_refused (M := core) hs, run_succ_of_refused (M := core) hs']
      exact .refused r

end

/-- Settles O49: alike states are simulated by each other, step by step. -/
theorem runsDependOnTheAbstractStateOnly : Obligations.RunsDependOnTheAbstractStateOnly := by
  intro k v m1 m2 p sc rs n t hwf1 hwf2 hview hrun
  have halike : m1.Alike m2 := ⟨((Engine.wf_iff _).1 hwf1).1, ((Engine.wf_iff _).1 hwf2).1, hview⟩
  obtain ⟨t1, t2, ht1, ht2, h⟩ | ⟨r, hr, -⟩ := run_alike k (.intro halike p sc rs n)
  · obtain rfl : t1 = t := by rw [ht1] at hrun; cases hrun; rfl
    cases h with
    | @intro m1' m2' h' p' sc' rs' n' => exact ⟨m1', m2', p', sc', rs', n', rfl, ht2, h'.view_eq⟩
  · rw [hr] at hrun
    cases hrun

end Sys2Proof.Machine
end

-- The frame of a command and the length counter (spec/10_state.md R17 to R25, R31; spec/40_streaming_buffer.md R67 to R69)
section
/-! SUPPORT. What each command leaves of the buffer and of the scratch, the schedule COMPRESS leaves, and the length counter
modulo the block size. -/

namespace Sys2Proof

/-- The length counter counts whole blocks and wraps at one (R24). -/
theorem Variant.blockBytes_dvd_two_pow_lenBits (v : Variant) : v.blockBytes ∣ 2 ^ v.lenBits := by
  cases v <;> decide

end Sys2Proof

namespace Sys2Proof.Machine

theorem exec_absorb (b : Byte) (s : State) : exec (.absorb b) s = .next (s.withEngine (s.engine.absorbByte b)) := rfl

/-- `FINISH` builds the padded message outside `BUF` (log 5). -/
theorem exec_finish_buf {s t : State} (h : exec .finish s = .next t) : t.engine.buf = s.engine.buf := by
  obtain ⟨-, hbuf, -⟩ := Engine.finishMessage_fields s.engine
  cases hr : s.pins.rspReady with
  | true =>
    rw [exec_finish_ready hr] at h
    cases h
    exact hbuf
  | false =>
    rw [exec_finish_waiting hr] at h
    cases h
    exact hbuf

/-- `RESET` and `ABSORB` give no response and leave command progress alone (R67, R68). -/
theorem exec_responses_phase {i : Instr} {s t : State} (h : exec i s = .next t) (hi : i ≠ .finish) :
    t.responses = s.responses ∧ t.engine.phase = s.engine.phase := by
  cases i with
  | reset => cases h; exact ⟨rfl, rfl⟩
  | absorb b => cases h; exact ⟨rfl, Engine.absorbByte_phase _ b⟩
  | finish => exact absurd rfl hi

/-- Settles O26: clause by clause, each command's next state written out. -/
theorem commandFrames : Obligations.CommandFrames := by
  refine ⟨fun i s t h => ?_, fun s t h a => ?_, fun s t h a => ?_, fun s t b hwf h => ?_,
    fun v m m' p p' sc sc' rs rs' k k' h => ?_, fun v m m' p p' sc sc' rs rs' k k' b hmid h => ?_⟩
  · have hlast := exec_responses_phase h
    obtain ⟨m, rs, he⟩ := exec_next i s
    rw [he] at h
    cases h
    exact ⟨rfl, rfl, rfl, rfl, hlast⟩
  · cases h
    rfl
  · rw [exec_finish_buf h]
  · have hread (a : Nat) := Memory.read_write (off := s.engine.fill.toNat) (a := a) (x := b) ((Engine.wf_iff _).1 hwf).1
    cases h
    simp only [State.withEngine_engine, Engine.absorbByte_buf, hread]
    exact ⟨if_pos trivial, fun a ha => if_neg ha⟩
  · cases h
    exact ⟨rfl, rfl⟩
  · rw [exec_absorb] at h
    dsimp only at h
    rw [Engine.absorbByte_mid hmid] at h
    cases h
    exact ⟨rfl, rfl, rfl, rfl⟩

/-- `COMPRESS` leaves the schedule of its block in `SCHED` (R79, R90). -/
theorem compress_sched_toList {v : Variant} (m : Engine v) (block : List Byte) :
    (compress m block).sched.toList = schedule v block := by
  refine List.ext_getElem (by simp) fun t ht _ => ?_
  simp [compress]

/-- Settles O27: the byte that completes the block does not look at `LEN`, and `2^LENW - BS` is the last multiple of `BS`. -/
theorem lengthCounterWrapsSilently : Obligations.LengthCounterWrapsSilently := by
  intro s b hfill hlen
  have hle := Nat.le_of_dvd (Nat.two_pow_pos _) s.variant.blockBytes_dvd_two_pow_lenBits
  refine ⟨(s.engine.storeByte b).completeBlock, ?_, ?_, rfl, rfl, rfl, rfl, rfl,
    compress_sched_toList (s.engine.storeByte b) _,
    fun hwf => Engine.memRead_storeByte_full ((Engine.wf_iff _).1 hwf).1 hfill, fun len' => ?_⟩
  · rw [exec_absorb, Engine.absorbByte_last hfill]
    rfl
  · apply BitVec.eq_of_toNat_eq
    rw [Engine.completeBlock_len, Engine.storeByte_len, BitVec.toNat_add, BitVec.toNat_ofNat, Nat.add_mod_mod, hlen,
      Nat.sub_add_cancel hle, Nat.mod_self]
    rfl
  · rw [exec_absorb]
    dsimp only
    rw [Engine.absorbByte_last (by exact hfill)]
    rfl

/-- The length counter of an absorbing instance stays a multiple of the block size: the block it grows by divides the modulus
at which it wraps (R24, R25). -/
theorem Engine.absorbByte_len_mod {v : Variant} {m : Engine v} (b : Byte) (h : m.len.toNat % v.blockBytes = 0) :
    (m.absorbByte b).len.toNat % v.blockBytes = 0 := by
  obtain ⟨-, he⟩ | ⟨-, he⟩ := Engine.absorbByte_cases m b
  · rw [he]
    exact h
  · rw [he, Engine.completeBlock_len, Engine.storeByte_len, BitVec.toNat_add, BitVec.toNat_ofNat, Nat.add_mod_mod,
      Nat.mod_mod_of_dvd _ v.blockBytes_dvd_two_pow_lenBits, Nat.add_mod_right, h]

/-- The invariant I2 of R25: unless a response waits, `LEN` is a multiple of the block size. -/
def State.LenInWholeBlocks (s : State) : Prop :=
  s.engine.phase.rspValid = false → s.engine.len.toNat % s.variant.blockBytes = 0

theorem State.lenInWholeBlocks_of_len_zero {s : State} (h : s.engine.len = 0) : s.LenInWholeBlocks := by
  intro
  simp [h]

theorem State.takeResponse_lenInWholeBlocks {s : State} (h : s.LenInWholeBlocks) : s.takeResponse.LenInWholeBlocks := by
  unfold State.takeResponse
  split
  · exact h
  · exact h
  · exact State.lenInWholeBlocks_of_len_zero rfl

theorem exec_lenInWholeBlocks {i : Instr} {s t : State} (hready : s.engine.phase = .ready) (h : s.LenInWholeBlocks)
    (he : exec i s = .next t) : t.LenInWholeBlocks := by
  cases i with
  | reset =>
    cases he
    exact State.lenInWholeBlocks_of_len_zero rfl
  | absorb b =>
    cases he
    exact fun _ => Engine.absorbByte_len_mod b (h (by rw [hready]; rfl))
  | finish =>
    cases hr : s.pins.rspReady with
    | true =>
      rw [exec_finish_ready hr] at he
      cases he
      exact State.lenInWholeBlocks_of_len_zero rfl
    | false =>
      rw [exec_finish_waiting hr] at he
      cases he
      intro hidle
      cases hidle

/-- Settles O40, over the ways a step can leave a next state. -/
theorem stepKeepsLengthInWholeBlocks : Obligations.StepKeepsLengthInWholeBlocks := by
  intro s t (hs : s.LenInWholeBlocks) h
  show t.LenInWholeBlocks
  obtain rfl | ⟨hreset, rfl⟩ | ⟨d, -, -, rfl⟩ | rfl | ⟨hready, -, i, -, he⟩ := step_cases h
  · exact State.lenInWholeBlocks_of_len_zero rfl
  · exact fun _ => hs (by rw [hreset]; rfl)
  · exact State.takeResponse_lenInWholeBlocks (s := s.sample) hs
  · exact hs
  · exact exec_lenInWholeBlocks (s := s.sample) hready hs he

/-- Settles O21: the values `IV` prints, and zero for the two counters. -/
theorem initialStateValues : Obligations.InitialStateValues :=
  ⟨fun _ => ⟨rfl, rfl, rfl⟩, rfl, rfl, fun _ => ⟨rfl, rfl⟩, _, rfl⟩

end Sys2Proof.Machine
end

-- The block buffer (spec/20_memory.md R34, R35; spec/45_facade_output.md R105)
section
/-! SUPPORT. The cells determine a buffer in canonical form, what a cell holds after the store of a byte sequence, and the
canonical form and the digest lengths under each operation of a step. -/

namespace Sys2Proof.Machine

section
variable {limit : Nat}

@[simp] theorem Memory.read_head (k : Nat) (x : Byte) (m : Memory) : Memory.read ((k, x) :: m) k = x := if_pos rfl

theorem Memory.read_tail_of_ne {k a : Nat} {x : Byte} {m : Memory} (h : a ≠ k) :
    Memory.read ((k, x) :: m) a = m.read a := if_neg h

/-- Below the first listed offset every cell reads as blank. -/
theorem Memory.head_le_of_read_ne_blank {low k a : Nat} {x : Byte} {m : Memory}
    (h : Memory.wfFrom limit low ((k, x) :: m) = true) (hread : Memory.read ((k, x) :: m) a ≠ Memory.blank) : k ≤ a :=
  have hhead : Memory.wfFrom limit k ((k, x) :: m) = true :=
    Memory.wfFrom_cons_iff.2 ⟨le_rfl, (Memory.wfFrom_cons_iff.1 h).2⟩
  Nat.le_of_not_lt fun hlt => hread (Memory.read_of_wfFrom hhead hlt)

theorem Memory.eq_nil_of_read_blank {low : Nat} {m : Memory} (h : Memory.wfFrom limit low m = true)
    (hread : ∀ a, a < limit → m.read a = Memory.blank) : m = [] := by
  cases m with
  | nil => rfl
  | cons c m =>
    obtain ⟨k, x⟩ := c
    obtain ⟨-, hk, hx, -⟩ := Memory.wfFrom_cons_iff.1 h
    exact absurd ((Memory.read_head k x m).symm.trans (hread k hk)) hx

/-- The canonical form is canonical: the first entries agree in offset and byte, and the tails read alike. -/
theorem Memory.eq_of_read_eq {low low' : Nat} {m m' : Memory} (h : Memory.wfFrom limit low m = true)
    (h' : Memory.wfFrom limit low' m' = true) (hread : ∀ a, a < limit → m.read a = m'.read a) : m = m' := by
  induction m generalizing m' low low' with
  | nil => exact (Memory.eq_nil_of_read_blank h' fun a ha => (hread a ha).symm).symm
  | cons c m ih =>
    cases m' with
    | nil => exact Memory.eq_nil_of_read_blank h hread
    | cons c' m' =>
      obtain ⟨k, x⟩ := c
      obtain ⟨k', x'⟩ := c'
      obtain ⟨-, hk, hx, htail⟩ := Memory.wfFrom_cons_iff.1 h
      obtain ⟨-, hk', hx', htail'⟩ := Memory.wfFrom_cons_iff.1 h'
      have hle : k' ≤ k := Memory.head_le_of_read_ne_blank h' (by rwa [← hread k hk, Memory.read_head])
      have hge : k ≤ k' := Memory.head_le_of_read_ne_blank h (by rwa [hread k' hk', Memory.read_head])
      obtain rfl : k = k' := le_antisymm hge hle
      obtain rfl : x = x' := by simpa using hread k hk
      have htails : m = m' := ih htail htail' fun a ha => by
        by_cases hak : a = k
        · rw [Memory.read_of_wfFrom htail (by omega), Memory.read_of_wfFrom htail' (by omega)]
        · simpa only [Memory.read_tail_of_ne hak] using hread a ha
      rw [htails]

section
variable {off a : Nat} {b : List Byte} {m : Memory}

/-- A read after the store of a byte sequence: the stored byte at an offset it covers, every other cell as before (R35). -/
theorem Memory.read_memWrite (hoff : off + b.length ≤ limit) (h : Memory.wf limit m = true) :
    (m.memWrite off b).read a = if off ≤ a ∧ a < off + b.length then b.getD (a - off) 0 else m.read a := by
  induction b generalizing off m with
  | nil => rw [if_neg (by simp)]; rfl
  | cons x b ih =>
    rw [List.length_cons] at hoff ⊢
    rw [Memory.memWrite, ih (by omega) (Memory.wf_write (by omega) h), Memory.read_write h]
    by_cases hfirst : a = off
    · subst a
      rw [if_neg (by omega), if_pos rfl, if_pos (by omega), Nat.sub_self, List.getD_cons_zero]
    · by_cases hrest : off + 1 ≤ a ∧ a < off + 1 + b.length
      · have hsub : a - off = a - (off + 1) + 1 := by omega
        rw [if_pos hrest, if_pos (by omega), hsub, List.getD_cons_succ]
      · rw [if_neg hrest, if_neg hfirst, if_neg (by omega)]

theorem Memory.read_memWrite_stored {i : Nat} (hoff : off + b.length ≤ limit) (h : Memory.wf limit m = true)
    (hi : i < b.length) : (m.memWrite off b).read (off + i) = b.getD i 0 := by
  rw [Memory.read_memWrite hoff h, if_pos (by omega), Nat.add_sub_cancel_left]

theorem Memory.read_memWrite_other (hoff : off + b.length ≤ limit) (h : Memory.wf limit m = true)
    (ha : a < off ∨ off + b.length ≤ a) : (m.memWrite off b).read a = m.read a := by
  rw [Memory.read_memWrite hoff h, if_neg (by omega)]

theorem Memory.memRead_memWrite (hoff : off + b.length ≤ limit) (h : Memory.wf limit m = true) :
    (m.memWrite off b).memRead off b.length = b := by
  refine List.ext_getElem (Memory.memRead_length _ _ _) fun i _ hi => ?_
  simp [Memory.memRead_eq_map, Memory.read_memWrite_stored hoff h hi, hi]

/-- A store is idempotent (R35): the second one finds every cell as it leaves it. -/
theorem Memory.memWrite_memWrite (hoff : off + b.length ≤ limit) (h : Memory.wf limit m = true) :
    (m.memWrite off b).memWrite off b = m.memWrite off b := by
  have hwf := Memory.wf_memWrite hoff h
  refine Memory.eq_of_read_eq (Memory.wf_memWrite hoff hwf) hwf fun a _ => ?_
  rw [Memory.read_memWrite hoff hwf, Memory.read_memWrite hoff h]
  split <;> rfl

end

end

/-- Settles O20: the special case of two buffers of one block. -/
theorem bufferIsDeterminedByItsCells : Obligations.BufferIsDeterminedByItsCells :=
  fun _ _ _ h h' hread => Memory.eq_of_read_eq h h' hread

/-- Settles O19: what each cell holds after a store, and that `FILL` stays below the block size. -/
theorem bufferPrimitives : Obligations.BufferPrimitives := by
  refine ⟨fun v m off b h hoff => ?_, Memory.memRead_eq_map, fun v m => ?_⟩
  · exact ⟨fun i hi => Memory.read_memWrite_stored hoff h hi, fun a ha => Memory.read_memWrite_other hoff h ha,
      Memory.memRead_memWrite hoff h, Memory.memWrite_memWrite hoff h, Memory.wf_memWrite hoff h⟩
  · have hlt := m.fill_lt
    omega

@[simp] theorem Phase.wf_waiting {v : Variant} {d : List Byte} :
    (Phase.waiting d).wf v = true ↔ d.length = v.digestBytes := by simp [Phase.wf]

theorem State.wf_iff (s : State) :
    s.wf = true ↔ s.engine.wf = true ∧ ∀ d ∈ s.responses, d.length = s.variant.digestBytes := by simp [State.wf]

section
variable {v : Variant} {m : Engine v}

theorem Engine.wf_withPhase {p : Phase} (h : m.wf = true) (hp : p.wf v = true) :
    Engine.wf { m with phase := p } = true :=
  (Engine.wf_iff _).2 ⟨((Engine.wf_iff _).1 h).1, hp⟩

/-- The initial state of R31 keeps the buffer and command progress. -/
theorem Engine.wf_initialise (h : m.wf = true) : m.initialise.wf = true := h

theorem Engine.wf_absorbByte (b : Byte) (h : m.wf = true) : (m.absorbByte b).wf = true := by
  obtain ⟨hbuf, hphase⟩ := (Engine.wf_iff _).1 h
  exact (Engine.wf_iff _).2 ⟨Engine.absorbByte_canonical hbuf, Engine.absorbByte_phase m b ▸ hphase⟩

/-- `FINISH` leaves the buffer alone and presents a digest of `DB` bytes (R69, R105). -/
theorem Engine.wf_finishMessage (h : m.wf = true) : m.finishMessage.wf = true := by
  obtain ⟨-, hbuf, -, -, hphase⟩ := Engine.finishMessage_fields m
  rw [Engine.wf_iff, hbuf, hphase, Phase.wf_waiting]
  exact ⟨((Engine.wf_iff _).1 h).1, serialize_length _⟩

end

section
variable {s : State}

theorem State.wf_withEngine {m : Engine s.variant} (h : s.wf = true) (hm : m.wf = true) :
    (s.withEngine m).wf = true :=
  (State.wf_iff _).2 ⟨hm, ((State.wf_iff _).1 h).2⟩

theorem State.wf_hardwareReset (h : s.wf = true) : s.hardwareReset.wf = true :=
  State.wf_withEngine h (Engine.wf_withPhase (Engine.wf_initialise ((State.wf_iff _).1 h).1) rfl)

theorem State.wf_releaseReset (h : s.wf = true) : s.releaseReset.wf = true :=
  State.wf_withEngine h (Engine.wf_withPhase ((State.wf_iff _).1 h).1 rfl)

/-- The transferred digest is the one that waited, so it has `DB` bytes too (R62, R105). -/
theorem State.wf_takeResponse (h : s.wf = true) : s.takeResponse.wf = true := by
  obtain ⟨hengine, hresponses⟩ := (State.wf_iff _).1 h
  unfold State.takeResponse
  split
  · exact h
  · exact h
  · rename_i digest hwaiting
    have hdigest : digest.length = s.variant.digestBytes :=
      Phase.wf_waiting.1 (hwaiting ▸ ((Engine.wf_iff _).1 hengine).2)
    refine (State.wf_iff _).2 ⟨Engine.wf_withPhase (Engine.wf_initialise hengine) rfl, fun d hd => ?_⟩
    obtain hold | hnew := List.mem_append.1 hd
    · exact hresponses d hold
    · rw [List.mem_singleton.1 hnew]
      exact hdigest

theorem exec_wf {i : Instr} {t : State} (h : s.wf = true) (he : exec i s = .next t) : t.wf = true := by
  obtain ⟨hengine, -⟩ := (State.wf_iff _).1 h
  obtain hn | ⟨b, -, hn⟩ | ⟨-, hn⟩ | ⟨-, hn⟩ := exec_cases i s
  all_goals
    rw [hn] at he
    cases he
  · exact State.wf_withEngine h (Engine.wf_initialise hengine)
  · exact State.wf_withEngine h (Engine.wf_absorbByte b hengine)
  · exact State.wf_takeResponse (State.wf_withEngine h (Engine.wf_finishMessage hengine))
  · exact State.wf_withEngine h (Engine.wf_finishMessage hengine)

end

/-- Settles O38, over the ways a step can leave a next state. -/
theorem stepKeepsStatesWellFormed : Obligations.StepKeepsStatesWellFormed := by
  intro s t hs h
  have hsample : s.sample.wf = true := hs
  obtain rfl | ⟨-, rfl⟩ | ⟨d, -, -, rfl⟩ | rfl | ⟨-, -, i, -, he⟩ := step_cases h
  · exact State.wf_hardwareReset hsample
  · exact State.wf_releaseReset hsample
  · exact State.wf_takeResponse hsample
  · exact hsample
  · exact exec_wf hsample he

end Sys2Proof.Machine
end

-- The command word (spec/30_encoding.md R53 to R58)
section
/-! SUPPORT. The two fields of a command word, the decoder by the value of `op`, and the opcode rows as conditions on `op`. -/

namespace Sys2Proof

section
variable (w : BitVec 10) (op : BitVec 2) (data : Byte)

theorem opField_toNat : (opField w).toNat = w.toNat / 2 ^ 8 := by
  have hlt : w.toNat / 2 ^ 8 < 2 ^ 2 := by omega
  rw [opField, BitVec.extractLsb'_toNat, Nat.shiftRight_eq_div_pow, Nat.mod_eq_of_lt hlt]

theorem dataField_toNat : (dataField w).toNat = w.toNat % 2 ^ 8 := BitVec.extractLsb'_toNat 0 8 w

theorem commandWord_toNat : (commandWord op data).toNat = op.toNat * 2 ^ 8 + data.toNat := by
  rw [commandWord, BitVec.toNat_append, ← Nat.shiftLeft_add_eq_or_of_lt data.isLt, Nat.shiftLeft_eq]

@[simp] theorem commandWord_fields : commandWord (opField w) (dataField w) = w :=
  BitVec.eq_of_toNat_eq <| by rw [commandWord_toNat, opField_toNat, dataField_toNat, Nat.div_add_mod']

@[simp] theorem opField_commandWord : opField (commandWord op data) = op :=
  BitVec.eq_of_toNat_eq <| by rw [opField_toNat, commandWord_toNat]; omega

@[simp] theorem dataField_commandWord : dataField (commandWord op data) = data :=
  BitVec.eq_of_toNat_eq <| by rw [dataField_toNat, commandWord_toNat]; omega

end

section
variable {w : BitVec 10}

/-- The four values of `op` (R54, R56). -/
theorem opField_cases (w : BitVec 10) : opField w = 0 ∨ opField w = 1 ∨ opField w = 2 ∨ opField w = 3 := by
  generalize opField w = op
  revert op
  decide

theorem decode_of_op_reset (h : opField w = 0) : decode w = .ok .reset := by simp [decode, h]

theorem decode_of_op_absorb (h : opField w = 1) : decode w = .ok (.absorb (dataField w)) := by simp [decode, h]

theorem decode_of_op_finish (h : opField w = 2) : decode w = .ok .finish := by simp [decode, h]

theorem decode_of_op_reserved (h : opField w = 3) : decode w = .error (.reservedOp w) := by simp [decode, h]

/-- A word that decodes to a command has that command's `op`; an `ABSORB` is the word of its byte (R54, R55). -/
theorem decode_ok {i : Instr} (h : decode w = .ok i) :
    opField w = opField (encode i) ∧ ∀ b, i = .absorb b → w = encode i := by
  obtain h0 | h1 | h2 | h3 := opField_cases w
  · obtain rfl : Instr.reset = i := by simpa [decode_of_op_reset h0] using h
    exact ⟨h0, fun b hb => by cases hb⟩
  · obtain rfl : Instr.absorb (dataField w) = i := by simpa [decode_of_op_absorb h1] using h
    have hw : w = encode (.absorb (dataField w)) := by rw [encode, ← h1, commandWord_fields]
    exact ⟨congrArg opField hw, fun _ _ => hw⟩
  · obtain rfl : Instr.finish = i := by simpa [decode_of_op_finish h2] using h
    exact ⟨h2, fun b hb => by cases hb⟩
  · simp [decode_of_op_reserved h3] at h

/-- Only `op = 11` is no command (R56, R58). -/
theorem exists_decode_eq_ok_iff : (∃ i, decode w = .ok i) ↔ opField w ≠ 3 := by
  obtain h0 | h1 | h2 | h3 := opField_cases w
  · simp [h0, decode_of_op_reset h0]
  · simp [h1, decode_of_op_absorb h1]
  · simp [h2, decode_of_op_finish h2]
  · simp [h3, decode_of_op_reserved h3]

theorem exists_decode_eq_error_iff : (∃ e, decode w = .error e) ↔ opField w = 3 := by
  rw [← not_iff_not, ← ne_eq (opField w), ← exists_decode_eq_ok_iff]
  cases decode w <;> simp

theorem opField_eq_three_iff : opField w = 3 ↔ 0x300 ≤ w.toNat := by
  rw [← BitVec.toNat_inj, opField_toNat]
  have hlt := w.isLt
  change w.toNat / 2 ^ 8 = 3 ↔ _
  omega

theorem admittedWord_iff : admittedWord w = true ↔ opField w ≠ 3 := by
  rw [admittedWord, decide_eq_true_iff, ne_eq, opField_eq_three_iff, Nat.not_le]

end

section
variable (i : Instr)

theorem decode_encode : decode (encode i) = .ok i := by
  cases i with
  | reset => exact decode_of_op_reset (opField_commandWord 0 0)
  | absorb b => rw [encode, decode_of_op_absorb (opField_commandWord 1 b), dataField_commandWord]
  | finish => exact decode_of_op_finish (opField_commandWord 2 0)

/-- The mask of every row keeps the field `op` alone (R54). -/
theorem and_opMask (w : BitVec 10) : w &&& 0x300 = commandWord (opField w) 0 := by
  revert w
  decide

theorem opcodeRow_eq : opcodeRow i = ⟨commandWord (opField (encode i)) 0, 0x300⟩ := by
  cases i with
  | reset => rfl
  | absorb b => rw [encode, opField_commandWord]; rfl
  | finish => rfl

/-- A word lies in a command's row exactly when it has the command's `op` (R54). -/
theorem opcodeRow_covers_iff (w : BitVec 10) :
    (opcodeRow i).covers w = true ↔ opField w = opField (encode i) := by
  rw [opcodeRow_eq, OpcodeRow.covers, beq_iff_eq, and_opMask]
  refine ⟨fun h => ?_, fun h => by rw [h]⟩
  simpa using congrArg opField h

end

/-- Settles O5: each row and each error is a condition on `op`. -/
theorem decodeAndEncodeAgree : Obligations.DecodeAndEncodeAgree := by
  refine ⟨fun i _ => ?_, fun w i h => ?_, fun w i j hi hj => ?_, fun w => ?_, fun w => ?_⟩
  · exact ⟨decode_encode i, admittedWord_iff.2 (exists_decode_eq_ok_iff.1 ⟨i, decode_encode i⟩)⟩
  · obtain ⟨hop, habsorb⟩ := decode_ok h
    exact ⟨(opcodeRow_covers_iff i w).2 hop, habsorb⟩
  · rw [opcodeRow_covers_iff] at hi hj
    rw [opcodeRow_eq, opcodeRow_eq, ← hi, ← hj]
  · rw [exists_decode_eq_error_iff, opField_eq_three_iff]
  · rw [admittedWord_iff, exists_decode_eq_ok_iff]

/-- Settles O3: each word is its `op` followed by its data, whatever the data. -/
theorem specWordsDecodeToTheirCommands : Obligations.SpecWordsDecodeToTheirCommands :=
  ⟨decode_of_op_reset rfl, decode_of_op_reset rfl, decode_of_op_absorb rfl, decode_of_op_absorb rfl,
    decode_of_op_absorb rfl, decode_of_op_absorb rfl, decode_of_op_finish rfl, decode_of_op_finish rfl,
    decode_of_op_reserved rfl, decode_of_op_reserved rfl⟩

/-- Settles O4: the decoder by `op`, at a word put together from its fields. -/
theorem opSelectsTheCommandAndDataIsTheByte : Obligations.OpSelectsTheCommandAndDataIsTheByte := by
  refine ⟨fun w => ⟨commandWord_fields w, opField_toNat w, dataField_toNat w⟩, fun data => ?_, rfl, rfl⟩
  have hop (op : BitVec 2) := opField_commandWord op data
  exact ⟨decode_of_op_reset (hop 0), decode_encode (.absorb data), decode_of_op_finish (hop 2),
    decode_of_op_reserved (hop 3), rfl⟩

end Sys2Proof
end

-- The ports (spec/30_encoding.md R59, R60, R62; spec/60_exceptions.md R110)
section
/-! SUPPORT. The port event for each command progress, a step that accepts a command, and the port events that leave the pins
alone. -/

namespace Sys2Proof.Machine

section
variable {p : HostPins} {w : BitVec 10} {s : State}

theorem portEvent_waiting (digest : List Byte) (hrst : p.rst = false) :
    portEvent p (.waiting digest) = if p.rspReady then .transfer else .hold := by simp [portEvent, hrst]

theorem portEvent_offered (hrst : p.rst = false) (hvalid : p.cmdValid = true) :
    portEvent p .ready = if p.rstMidCommand then .abandon p.cmd else .accept p.cmd := by
  simp [portEvent, hrst, hvalid]

/-- While `cmd_ready` is 0 the command pins do not matter (R59). -/
theorem portEvent_busy {ph : Phase} (hbusy : ph.cmdReady = false) (valid : Bool) (w : BitVec 10) :
    portEvent { p with cmdValid := valid, cmd := w } ph = portEvent p ph := by
  cases ph with
  | inReset => rfl
  | ready => cases hbusy
  | waiting digest => rfl

theorem acceptCommand_of_decode {i : Instr} (h : decode w = .ok i) : acceptCommand w s = exec i s := by
  simp [acceptCommand, h]

theorem step_accept (hready : s.engine.phase = .ready) (hrst : s.sample.pins.rst = false)
    (hvalid : s.sample.pins.cmdValid = true) (hmid : s.sample.pins.rstMidCommand = false) :
    step s = acceptCommand s.sample.pins.cmd s.sample := by
  rw [step, State.sample_engine, hready, portEvent_offered hrst hvalid, hmid]
  rfl

/-- A command offered between commands is run to completion in one step (R59, R60). -/
theorem step_of_decode {i : Instr} (hready : s.engine.phase = .ready) (hrst : s.sample.pins.rst = false)
    (hvalid : s.sample.pins.cmdValid = true) (hmid : s.sample.pins.rstMidCommand = false)
    (hdecode : decode s.sample.pins.cmd = .ok i) : step s = exec i s.sample := by
  rw [step_accept hready hrst hvalid hmid, acceptCommand_of_decode hdecode]

theorem acceptCommand_reserved (hop : opField w = 3) : acceptCommand w s = .refused (.reservedCommand w) := by
  simp [acceptCommand, decode_of_op_reserved hop]

theorem abandonCommand_reserved (hop : opField w = 3) : abandonCommand w s = .refused (.reservedCommand w) := by
  simp [abandonCommand, decode_of_op_reserved hop]

/-- A reserved word is refused whether or not `rst` would abandon it (R58, log 7). -/
theorem step_reserved (hready : s.engine.phase = .ready) (hrst : s.sample.pins.rst = false)
    (hvalid : s.sample.pins.cmdValid = true) (hop : opField s.sample.pins.cmd = 3) :
    step s = .refused (.reservedCommand s.sample.pins.cmd) := by
  rw [step, State.sample_engine, hready, portEvent_offered hrst hvalid]
  split
  · exact abandonCommand_reserved hop
  · exact acceptCommand_reserved hop

/-- A step with a waiting response and `rst` low transfers it or holds it (R62). -/
theorem step_waiting {digest : List Byte} (hwaiting : s.engine.phase = .waiting digest)
    (hrst : s.sample.pins.rst = false) :
    step s = .next (if s.sample.pins.rspReady then s.sample.takeResponse else s.sample) := by
  rw [step, State.sample_engine, hwaiting, portEvent_waiting digest hrst]
  split <;> rfl

end

/-- The number that spec/opcode_table.json gives a command is a command word (log 13). -/
theorem decode_of_decodeTableWord {nbits w : Nat} {i : Instr} (h : decodeTableWord nbits w = some i) :
    decode (BitVec.ofNat 10 w) = .ok i := by
  unfold decodeTableWord at h
  split at h
  · cases hd : decode (BitVec.ofNat 10 w) with
    | error e => simp [hd, Except.toOption] at h
    | ok j => simpa [hd, Except.toOption] using h
  · cases h

/-- Settles O29: the accepting step, the two shapes of a script, and the step after a load of the script. -/
theorem stepRunsTheDecodedCommand : Obligations.StepRunsTheDecodedCommand := by
  refine ⟨fun s i => step_of_decode, fun s p rest hscript => ?_, fun s hscript => ?_, fun s nbits w i h => ?_⟩
  · simp [State.sample, hscript]
  · simp [State.sample, hscript]
  · exact step_of_decode rfl rfl rfl rfl (decode_of_decodeTableWord h)

/-- Settles O30: the refusing step; `op = 11` is what a stream must not hold, and all that is no command. -/
theorem reservedWordIsRefused : Obligations.ReservedWordIsRefused := by
  refine ⟨fun s => step_reserved, fun ws w hmem hop => ?_, fun w => exists_decode_eq_ok_iff.2⟩
  have hnot : admittedWord w = false := Bool.eq_false_iff.2 fun h => admittedWord_iff.1 h hop
  exact List.all_eq_false.2 ⟨w, hmem, by simp [hnot]⟩

/-- Settles O25: `FINISH` with a host that is not ready, then a step that holds the response and one that transfers it. -/
theorem responseHandshake : Obligations.ResponseHandshake := by
  refine ⟨fun s hnot => ?_, fun s digest hwaiting hrst hnot => ?_, fun s => ⟨rfl, rfl, rfl⟩,
    fun s digest hwaiting hrst hrsp => ?_, fun s hnone => ?_⟩
  · obtain ⟨hh, -, hfill, hlen, hphase⟩ := Engine.finishMessage_fields s.engine
    refine ⟨s.engine.finishMessage, exec_finish_waiting hnot, hh, hfill, hlen, hphase, ?_⟩
    rw [hphase]
    exact ⟨rfl, rfl, rfl⟩
  · rw [step_waiting hwaiting hrst, hnot]
    rfl
  · rw [step_waiting hwaiting hrst, hrsp, if_pos rfl, State.takeResponse_waiting (s := s.sample) hwaiting]
    rfl
  · unfold State.rspValid at hnone
    unfold State.rspData rspData
    split
    · rfl
    · rfl
    · rename_i hwaiting
      rw [hwaiting] at hnone
      cases hnone

/-- While `cmd_ready` is 0 no command is accepted and none abandoned (R59, R110). -/
theorem portEvent_busy_cases {ph : Phase} (hbusy : ph.cmdReady = false) (p : HostPins) :
    portEvent p ph = .hardwareReset ∨ portEvent p ph = .releaseReset ∨ portEvent p ph = .transfer ∨
      portEvent p ph = .hold := by
  cases hrst : p.rst with
  | true => exact .inl (by simp [portEvent, hrst])
  | false =>
    cases ph with
    | inReset => exact .inr (.inl (by simp [portEvent, hrst]))
    | ready => cases hbusy
    | waiting digest =>
      rw [portEvent_waiting digest hrst]
      split
      · exact .inr (.inr (.inl rfl))
      · exact .inr (.inr (.inr rfl))

theorem State.takeResponse_withPins (s : State) (q : HostPins) :
    State.takeResponse { s with pins := q } = { s.takeResponse with pins := q } := by
  obtain ⟨v, ⟨h, buf, fill, len, reg, sched, phase⟩, p, sc, rs, n⟩ := s
  cases phase with
  | inReset => rfl
  | ready => rfl
  | waiting digest => rfl

/-- What a port event does to a busy instance does not depend on the pins any more. -/
theorem runEvent_busy {ph : Phase} (hbusy : ph.cmdReady = false) (p : HostPins) (s : State) :
    ∃ t : State, ∀ q : HostPins, runEvent (portEvent p ph) { s with pins := q } = .next { t with pins := q } := by
  obtain he | he | he | he := portEvent_busy_cases hbusy p
  all_goals rw [he]
  · exact ⟨s.hardwareReset, fun _ => rfl⟩
  · exact ⟨s.releaseReset, fun _ => rfl⟩
  · exact ⟨s.takeResponse, fun q => congrArg Host.Outcome.next (s.takeResponse_withPins q)⟩
  · exact ⟨s, fun _ => rfl⟩

/-- Settles O31: the two steps make one port event, and it does not look at the pins again. -/
theorem wordOfferedWhileBusyIsIgnored : Obligations.WordOfferedWhileBusyIsIgnored := by
  intro s p rest w hbusy
  obtain ⟨t, ht⟩ := runEvent_busy hbusy p { s with script := rest, ticks := s.ticks + 1 }
  refine ⟨t, ?_, ?_⟩
  · rw [← ht, ← portEvent_busy hbusy true w]; rfl
  · rw [← ht, ← portEvent_busy hbusy false p.cmd]; rfl

end Sys2Proof.Machine
end

-- The response port (spec/30_encoding.md R61, R62; spec/45_facade_output.md R104)
section
/-! SUPPORT. FromBE of sequences put together, and a digest on `rsp_data` as one number and lane by lane. -/

namespace Sys2Proof.Machine

theorem fromBE_append (a b : List Byte) : fromBE (a ++ b) = fromBE a * 2 ^ (8 * b.length) + fromBE b := by
  rw [fromBE, List.foldl_append, foldl_mul_add_toNat]
  rfl

/-- Words written big-endian one after the other are the digits of one number in base `2^W` (R61, R104). -/
theorem fromBE_flatMap_toBE {w n : Nat} (hw : w = 8 * n) (l : List (BitVec w)) :
    fromBE (l.flatMap fun x => toBE n x.toNat)
      = ((List.range l.length).map fun i => (l.getD i 0).toNat * 2 ^ ((l.length - 1 - i) * w)).sum := by
  induction l with
  | nil => rfl
  | cons x l ih =>
    have hx : x.toNat % 2 ^ (8 * n) = x.toNat := Nat.mod_eq_of_lt (hw ▸ x.isLt)
    have hlen : (l.flatMap fun x => toBE n x.toNat).length = l.length * n := by simp
    rw [List.flatMap_cons, fromBE_append, fromBE_toBE, hx, hlen, ih, List.length_cons, List.range_succ_eq_map,
      List.map_cons, List.sum_cons, List.map_map]
    have hexp : 8 * (l.length * n) = l.length * w := by rw [Nat.mul_left_comm, ← hw]
    simp [Function.comp_def, Nat.sub_sub, Nat.add_comm 1, hexp]

section
variable {v : Variant}

theorem packDigest_toNat {digest : List Byte} (h : digest.length = v.digestBytes) :
    (packDigest v digest).toNat = fromBE digest := by
  rw [packDigest, BitVec.toNat_ofNat, Nat.mod_eq_of_lt (h ▸ fromBE_lt digest)]

/-- Byte `i` of a digest, the first one in the most significant lane (R61). -/
theorem packDigest_lane {digest : List Byte} (h : digest.length = v.digestBytes) {i : Nat} (hi : i < v.digestBytes) :
    (packDigest v digest).toNat / 2 ^ (8 * (v.digestBytes - 1 - i)) % 2 ^ 8 = (digest.getD i 0).toNat := by
  rw [packDigest_toNat h, ← toBE_getD_toNat (fromBE digest) hi, ← h, toBE_fromBE]

theorem fromBE_serialize (h : Words8 v) :
    fromBE (serialize h) = ((List.range 8).map fun i => (h.toList.getD i 0).toNat * 2 ^ ((7 - i) * v.wordBits)).sum :=
  fromBE_flatMap_toBE (by rw [← v.wordBytes_mul_eight, Nat.mul_comm]) h.toList

end

/-- Settles O18: the lanes and the sum for every digest, and what `FINISH` presents. -/
theorem responsePortPacksTheDigest : Obligations.ResponsePortPacksTheDigest := by
  have hpack {v : Variant} (h : Words8 v) := packDigest_toNat (serialize_length h)
  refine ⟨fun v h => ⟨fun d hd i hi => packDigest_lane hd hi, hpack h, (hpack h).trans (fromBE_serialize h)⟩,
    fun s hnot => ?_⟩
  obtain ⟨hh, -, -, -, hphase⟩ := Engine.finishMessage_fields s.engine
  rw [← hh] at hphase
  refine ⟨s.engine.finishMessage, exec_finish_waiting hnot, hphase, ?_, hh⟩
  rw [hphase]
  exact hpack _

end Sys2Proof.Machine
end

-- HASH through the ports (spec/30_encoding.md R59, R60, R65; spec/40_streaming_buffer.md R69, R72; spec/44_padder.md R97 to R101)
section
/-! SUPPORT. The padded whole message as its complete blocks and the blocks `PAD` makes, what `FINISH` answers for an absorbed
message, and the run of a host that offers commands one a step. -/

namespace Sys2Proof.Machine

section
variable {v : Variant}

/-- Padding needs the fewest zeros that make whole blocks, in one block or in two (R97, R98, R100). -/
theorem padZeroCount_mod (v : Variant) (n : Nat) :
    padZeroCount v (n % v.blockBytes)
      = (v.blockBytes - (n + 1 + v.lengthFieldBytes) % v.blockBytes) % v.blockBytes := by
  unfold padZeroCount padBlockCount
  split <;> cases v
  all_goals
    simp only [Variant.blockBytes, Variant.oneBlockMax, Variant.lengthFieldBytes] at *
    omega

/-- `PAD` compresses all the blocks of the padded message. -/
theorem padBlocks_eq_completeBlocks {rem : List Byte} (total : Nat) (h : rem.length < v.blockBytes) :
    padBlocks v rem total = completeBlocks v (paddedMessage v rem total) := by
  have hlen := paddedMessage_length v total h
  have hp := v.blockBytes_pos
  have hcount : (paddedMessage v rem total).length / v.blockBytes = padBlockCount v rem.length := by
    rw [hlen, Nat.mul_div_cancel _ hp]
  rw [padBlocks, completeBlocks, hcount]
  unfold padBlockCount
  split <;> simp [List.range_succ]

/-- The blocks of the padded whole message are those of the message and then the ones `PAD` makes of its remainder (R72, R97). -/
theorem completeBlocks_paddedWhole (v : Variant) (msg : List Byte) :
    completeBlocks v (paddedWhole v msg) = completeBlocks v msg ++ padBlocks v (remainder v msg) msg.length := by
  have hrem : (remainder v msg).length < v.blockBytes := by
    rw [remainder_length]
    exact Nat.mod_lt _ v.blockBytes_pos
  rw [padBlocks_eq_completeBlocks _ hrem, paddedWhole, List.append_assoc, List.append_assoc,
    (completeBlocks_append v msg _).1, ← padZeroCount_mod, ← remainder_length]
  simp [paddedMessage, bitLength]

/-- The length field holds the bit length modulo its width, so the wrapped length counter gives the same (R101). -/
theorem bitLength_mod (v : Variant) (total : Nat) : bitLength v (total % 2 ^ v.lenBits) = bitLength v total := by
  rw [bitLength, v.lenBits_eq, Nat.mod_mul_mod]
  rfl

theorem padBlocks_mod (v : Variant) (rem : List Byte) (total : Nat) :
    padBlocks v rem (total % 2 ^ v.lenBits) = padBlocks v rem total := by
  simp [padBlocks, paddedMessage, bitLength_mod]

variable {m : Engine v} {msg : List Byte}

theorem Engine.Absorbed.totalLength_toNat (h : m.Absorbed msg) :
    m.totalLength.toNat = msg.length % 2 ^ v.lenBits := by
  rw [Engine.totalLength, h.len, h.fill, ← BitVec.ofNat_add, Nat.div_add_mod, BitVec.toNat_ofNat]

/-- Streaming and padding at once compress the same blocks (R72, R106). -/
theorem Engine.Absorbed.finalHash_eq (h : m.Absorbed msg) :
    foldBlocks m.h (padBlocks v m.pending m.totalLength.toNat)
      = foldBlocks (initialHash v) (completeBlocks v (paddedWhole v msg)) := by
  rw [h.totalLength_toNat, padBlocks_mod, h.pending, h.hash, completeBlocks_paddedWhole, foldBlocks_append]

end

section
variable {s : State} {msg : List Byte}

/-- `FINISH` answers the digest of the absorbed message and leaves the empty one (R69, R106). -/
theorem exec_finish_of_absorbed (h : s.engine.Absorbed msg) (hrsp : s.pins.rspReady = true) :
    ∃ m : Engine s.variant,
      exec .finish s = .next { s with engine := m, responses := s.responses ++ [messageDigest s.variant msg] } ∧
      m.Absorbed [] := by
  obtain ⟨-, hbuf, -⟩ := Engine.finishMessage_fields s.engine
  refine ⟨{ s.engine.finishMessage.initialise with phase := .ready }, ?_,
    Engine.absorbed_nil rfl (hbuf ▸ h.canonical) rfl rfl rfl⟩
  rw [exec_finish_ready hrsp, h.finalHash_eq]
  rfl

variable {sc : List HostPins}

theorem State.sample_pins_of_cons {p : HostPins} (hscript : s.script = p :: sc) : s.sample.pins = p := by
  rw [State.sample_pins, hscript]
  rfl

theorem State.sample_script_of_cons {p : HostPins} (hscript : s.script = p :: sc) : s.sample.script = sc := by
  rw [State.sample_script, hscript, List.tail_cons]

/-- A host that offers a command between commands has it executed in the next step (R59, R60). -/
theorem step_offer {i : Instr} (hready : s.engine.phase = .ready) (hscript : s.script = offer i :: sc) :
    step s = exec i s.sample := by
  apply step_of_decode hready
  all_goals rw [State.sample_pins_of_cons hscript]
  · rfl
  · rfl
  · rfl
  · exact decode_encode i

theorem offerAll_hashCommands :
    offerAll (hashCommands msg) ++ sc = offer .reset :: (offerAll (digestCommands msg) ++ offer .finish :: sc) := by
  simp [offerAll, hashCommands]

/-- A host that offers `FINISH` and takes the response has the digest of the absorbed message after that step (R62, R69). -/
theorem step_offer_finish (h : s.engine.Absorbed msg) (hscript : s.script = offer .finish :: sc) :
    ∃ m : Engine s.variant,
      step s = .next { s with
        engine := m, pins := offer .finish, script := sc
        responses := s.responses ++ [messageDigest s.variant msg]
        ticks := s.ticks + 1 } ∧
      m.Absorbed [] := by
  have hpins := State.sample_pins_of_cons hscript
  obtain ⟨m, hexec, hempty⟩ := exec_finish_of_absorbed (s := s.sample) h (by rw [hpins]; rfl)
  refine ⟨m, ?_, hempty⟩
  rw [step_offer h.ready hscript, hexec, hpins, State.sample_script_of_cons hscript]
  rfl

/-- A host that offers `DIGEST msg`, one byte a step, has the absorbed message extended by `msg` at the next step (R71). -/
theorem run_digestCommands {before : List Byte} (k : Nat) (h : s.engine.Absorbed before)
    (hscript : s.script = offerAll (digestCommands msg) ++ sc) :
    ∃ (m : Engine s.variant) (p : HostPins),
      Host.Core.run core (msg.length + k) s
        = Host.Core.run core k
            ({ s with engine := m, pins := p, script := sc, ticks := s.ticks + msg.length } : State) ∧
      m.Absorbed (before ++ msg) := by
  induction msg generalizing s before with
  | nil =>
    obtain rfl : s.script = sc := hscript
    exact ⟨s.engine, s.pins, by rw [List.length_nil, Nat.zero_add, Nat.add_zero], by rwa [List.append_nil]⟩
  | cons b msg ih =>
    have hstep : step s = .next (s.sample.withEngine (s.engine.absorbByte b)) := step_offer h.ready hscript
    obtain ⟨m, p, hrun, habsorbed⟩ :=
      ih (s := s.sample.withEngine (s.engine.absorbByte b)) (h.absorbByte (b := b)) (State.sample_script_of_cons hscript)
    have hticks : s.ticks + (msg.length + 1) = s.sample.ticks + msg.length := by rw [State.sample_ticks]; omega
    refine ⟨m, p, ?_, List.append_cons before b msg ▸ habsorbed⟩
    rw [List.length_cons, Nat.add_right_comm, run_succ_of_next (M := core) hstep, hticks]
    exact hrun

end

/-- Settles O46: `RESET` makes it the empty message, the bytes of `msg` follow one a step, and `FINISH` answers. -/
theorem hashThroughThePorts : Obligations.HashThroughThePorts := by
  intro s msg rest hwf hready hscript
  rw [offerAll_hashCommands] at hscript
  have hreset : step s = .next (s.sample.withEngine s.engine.initialise) := step_offer hready hscript
  have hempty : s.engine.initialise.Absorbed [] :=
    Engine.absorbed_nil hready ((Engine.wf_iff _).1 hwf).1 rfl rfl rfl
  obtain ⟨m, p, hrun, habsorbed⟩ := run_digestCommands (s := s.sample.withEngine s.engine.initialise) 1 hempty
    (State.sample_script_of_cons hscript)
  obtain ⟨m', hfinish, hfresh⟩ := step_offer_finish (s := { s with
    engine := m, pins := p, script := offer .finish :: rest, ticks := s.ticks + 1 + msg.length }) habsorbed rfl
  have hticks : s.ticks + (msg.length + 2) = s.ticks + 1 + msg.length + 1 := by omega
  refine ⟨m', ?_, hfresh⟩
  rw [run_succ_of_next (M := core) hreset, hticks]
  exact hrun.trans (run_succ_of_next (M := core) (k := 0) hfinish)

end Sys2Proof.Machine
end

-- DIGEST and HASH (spec/40_streaming_buffer.md R68, R69, R71, R72; spec/45_facade_output.md R106)
section
/-! SUPPORT. A command sequence run through its parts, what the bytes of DIGEST do to hash state, length and pending bytes
together, and DIGEST and then FINISH on an instance that stands for a message. -/

namespace Sys2Proof.Machine

/-- `DIGEST msg` on an instance: the bytes absorbed one after the other (R71). -/
def Engine.absorbBytes {v : Variant} (m : Engine v) (msg : List Byte) : Engine v :=
  msg.foldl Engine.absorbByte m

section
variable {v : Variant} {m : Engine v}

@[simp] theorem Engine.absorbBytes_nil (m : Engine v) : m.absorbBytes [] = m := rfl

@[simp] theorem Engine.absorbBytes_cons (m : Engine v) (b : Byte) (msg : List Byte) :
    m.absorbBytes (b :: msg) = (m.absorbByte b).absorbBytes msg := rfl

/-- `DIGEST` extends the message an instance stands for by its operand (R25, R71). -/
theorem Engine.Absorbed.absorbBytes {before : List Byte} (msg : List Byte) (h : m.Absorbed before) :
    (m.absorbBytes msg).Absorbed (before ++ msg) := by
  induction msg generalizing m before with
  | nil => rwa [List.append_nil]
  | cons b msg ih => exact List.append_cons before b msg ▸ ih h.absorbByte

/-- `RESET` leaves an instance between commands with the empty message, whatever it had absorbed (R67). -/
theorem Engine.absorbed_initialise (hwf : m.wf = true) (hready : m.phase = .ready) : m.initialise.Absorbed [] :=
  Engine.absorbed_nil hready ((Engine.wf_iff _).1 hwf).1 rfl rfl rfl

/-- One full block in front of a sequence is its first complete block. -/
theorem completeBlocks_cons_block {block : List Byte} (rest : List Byte) (h : block.length = v.blockBytes) :
    completeBlocks v (block ++ rest) = block :: completeBlocks v rest ∧
      remainder v (block ++ rest) = remainder v rest := by
  simpa using completeBlocks_flatten_append v [block] rest (by simpa using h)

/-- `DIGEST` compresses the complete blocks of the pending bytes and its operand together, counts them, and leaves the rest
pending: a byte in mid-block joins the pending bytes, the last byte of a block splits one block off (R68, R71). -/
theorem Engine.absorbBytes_fields (msg : List Byte) (hbuf : Memory.wf v.blockBytes m.buf = true) :
    (m.absorbBytes msg).h = foldBlocks m.h (completeBlocks v (m.pending ++ msg)) ∧
      (m.absorbBytes msg).pending = remainder v (m.pending ++ msg) ∧
      (m.absorbBytes msg).len
        = m.len + BitVec.ofNat v.lenBits ((completeBlocks v (m.pending ++ msg)).length * v.blockBytes) := by
  induction msg generalizing m with
  | nil =>
    obtain ⟨hnone, hall⟩ := completeBlocks_of_lt v (x := m.pending) (by rw [Engine.pending_length]; exact m.fill_lt)
    simp [hnone, hall, foldBlocks]
  | cons b msg ih =>
    obtain ⟨hh, hpending, hlen⟩ := ih (Engine.absorbByte_canonical (b := b) hbuf)
    rw [List.append_cons, Engine.absorbBytes_cons, hh, hpending, hlen]
    by_cases hlast : m.fill.toNat = v.blockBytes - 1
    · obtain ⟨hh', -, hlen', hnone⟩ := Engine.absorbByte_fields_last (b := b) hbuf hlast
      obtain ⟨hblocks, hrem⟩ := completeBlocks_cons_block (v := v) (block := m.pending ++ [b]) msg
        (by have := m.fill_lt; rw [List.length_append, Engine.pending_length, List.length_singleton]; omega)
      rw [hh', hlen', hnone, List.nil_append, hblocks, hrem, List.length_cons, Nat.succ_mul, Nat.add_comm, BitVec.ofNat_add,
        BitVec.add_assoc]
      exact ⟨rfl, rfl, rfl⟩
    · obtain ⟨hh', -, hlen', hpending'⟩ := Engine.absorbByte_fields_mid (b := b) hbuf hlast
      rw [hh', hlen', hpending']
      exact ⟨rfl, rfl, rfl⟩

end

section
variable {s t : State}

theorem exec_reset (s : State) : exec .reset s = .next (s.withEngine s.engine.initialise) := rfl

theorem runCommands_cons_of_next {i : Instr} (rest : List Instr) (h : exec i s = .next t) :
    runCommands (i :: rest) s = runCommands rest t := by
  simp only [runCommands, h]

/-- The commands of `DIGEST` complete in every state, and what follows them starts from the instance they leave (R71). -/
theorem runCommands_digestCommands_append (msg : List Byte) (rest : List Instr) (s : State) :
    runCommands (digestCommands msg ++ rest) s = runCommands rest (s.withEngine (s.engine.absorbBytes msg)) := by
  induction msg generalizing s with
  | nil => rfl
  | cons b msg ih =>
    exact (runCommands_cons_of_next _ (exec_absorb b s)).trans (ih (s.withEngine (s.engine.absorbByte b)))

/-- `DIGEST msg` and `FINISH` answer the digest of the message extended by `msg` (R69, R71, R106). -/
theorem runCommands_digest_finish {before : List Byte} (msg : List Byte) (h : s.engine.Absorbed before)
    (hrsp : s.pins.rspReady = true) :
    ∃ m : Engine s.variant,
      runCommands (digestCommands msg ++ [.finish]) s
        = .next { s with engine := m, responses := s.responses ++ [messageDigest s.variant (before ++ msg)] } ∧
      m.Absorbed [] := by
  obtain ⟨m, hfinish, hempty⟩ :=
    exec_finish_of_absorbed (s := s.withEngine (s.engine.absorbBytes msg)) (h.absorbBytes msg) hrsp
  refine ⟨m, ?_, hempty⟩
  rw [runCommands_digestCommands_append, runCommands_cons_of_next [] hfinish]
  rfl

end

/-- Settles O42: streaming and padding at once compress the same blocks. -/
theorem finishAnswersTheDigestOfTheMessage : Obligations.FinishAnswersTheDigestOfTheMessage :=
  fun _ _ h hrsp => exec_finish_of_absorbed h hrsp

/-- Settles O43, by induction over the bytes; `FILL` is the length of the pending bytes. -/
theorem digestEffect : Obligations.DigestEffect := by
  intro s msg hwf
  obtain ⟨hh, hpending, hlen⟩ := Engine.absorbBytes_fields msg ((Engine.wf_iff _).1 hwf).1
  have hcount : (s.engine.pending ++ msg).length = s.engine.fill.toNat + msg.length := by
    rw [List.length_append, Engine.pending_length]
  refine ⟨s.engine.absorbBytes msg, ?_, hh, ?_, ?_, hpending⟩
  · have hrun := runCommands_digestCommands_append msg [] s
    rwa [List.append_nil] at hrun
  · rw [← Engine.pending_length, hpending, remainder_length, hcount]
  · rw [hlen, BitVec.toNat_add, BitVec.toNat_ofNat, Nat.add_mod_mod, completeBlocks_length, hcount]

/-- Settles O45: `RESET` makes it the empty message, whatever was before. -/
theorem hashAnswersTheDigestFromAnyState : Obligations.HashAnswersTheDigestFromAnyState := by
  intro s msg hwf hready hrsp
  obtain ⟨m, hrun, hempty⟩ := runCommands_digest_finish (s := s.withEngine s.engine.initialise) msg
    (Engine.absorbed_initialise hwf hready) hrsp
  exact ⟨m, (runCommands_cons_of_next _ (exec_reset s)).trans hrun, hempty⟩

end Sys2Proof.Machine
end

-- The three commands (spec/40_streaming_buffer.md R67 to R69, R76)
section
/-! SUPPORT. What each command does to an instance field by field, its word with any data, and a finite command sequence with
its responses. -/

namespace Sys2Proof.Machine

/-- Settles O22: the initial state is the same when it is made again. -/
theorem resetCommandGivesTheInitialState : Obligations.ResetCommandGivesTheInitialState := by
  refine ⟨fun s => rfl, fun s t h => ?_, fun s => rfl, fun s t hrsp h => ?_,
    fun data => decode_of_op_reset (opField_commandWord 0 data), rfl, rfl, rfl⟩
  · rw [exec_reset] at h
    cases h
    rfl
  · rw [exec_finish_ready hrsp] at h
    cases h
    rfl

/-- A byte that does not complete the block leaves the scratch alone (R68). -/
theorem Engine.absorbByte_scratch_mid {v : Variant} {m : Engine v} (b : Byte) (h : m.fill.toNat ≠ v.blockBytes - 1) :
    (m.absorbByte b).reg = m.reg ∧ (m.absorbByte b).sched = m.sched := by
  rw [Engine.absorbByte_mid h]
  exact ⟨rfl, rfl⟩

/-- Settles O23: the two cases of an absorbed byte. -/
theorem absorbAppendsOneByte : Obligations.AbsorbAppendsOneByte := by
  refine ⟨fun s b hwf => ?_, fun b => ⟨decode_encode (.absorb b), (Laws.CanonicalWord.absorb b).1⟩⟩
  have hbuf := ((Engine.wf_iff _).1 hwf).1
  refine ⟨s.engine.absorbByte b, exec_absorb b s, Engine.absorbByte_buf _ b, Engine.absorbByte_phase _ b,
    fun hmid => ?_, fun hlast => ?_⟩
  · obtain ⟨hh, hfill, hlen, hpending⟩ := Engine.absorbByte_fields_mid (b := b) hbuf hmid
    obtain ⟨hreg, hsched⟩ := Engine.absorbByte_scratch_mid b hmid
    exact ⟨by rw [hfill, Engine.toNat_fill_add_one hmid], hh, hlen, hreg, hsched, hpending⟩
  · obtain ⟨hh, hfill, hlen, hpending⟩ := Engine.absorbByte_fields_last (b := b) hbuf hlast
    refine ⟨hfill, hh, ?_, hpending⟩
    rw [hlen, BitVec.toNat_add, BitVec.toNat_ofNat, Nat.add_mod_mod]

section
variable {v : Variant} {m : Engine v}

theorem Engine.totalLength_toNat (m : Engine v) :
    m.totalLength.toNat = (m.len.toNat + m.fill.toNat) % 2 ^ v.lenBits := by
  rw [Engine.totalLength, BitVec.toNat_add, BitVec.toNat_ofNat, Nat.add_mod_mod]

theorem Engine.initial_absorbed (v : Variant) : (Engine.initial v).Absorbed [] :=
  Engine.absorbed_nil rfl rfl rfl rfl rfl

/-- What `FINISH` compresses is part of the abstract state, so with the abstract state of a fresh instance it ends with the
hash state of the empty message (R33, R69). -/
theorem Engine.finalHash_of_view_initial (h : m.view = (Engine.initial v).view) :
    serialize (foldBlocks m.h (padBlocks v m.pending m.totalLength.toNat)) = messageDigest v [] := by
  obtain ⟨hh, -, -, hpending, -⟩ := Engine.view_eq_iff.1 h
  have htotal : m.totalLength = (Engine.initial v).totalLength := congrArg View.total h
  rw [hh, hpending, htotal, (Engine.initial_absorbed v).finalHash_eq, messageDigest]

end

/-- The digest of the empty message for variant A (spec/95_test_vectors.md). -/
theorem messageDigest_nil_a :
    messageDigest .a [] = toBE 32 0xe3b0c44298fc1c149afbf4c8996fb92427ae41e4649b934ca495991b7852b855 := by
  decide +kernel

/-- Settles O24: the fields of the state `FINISH` leaves; its response in the initial state is the digest of no bytes. -/
theorem finishDeliversTheDigestAndResets : Obligations.FinishDeliversTheDigestAndResets := by
  refine ⟨fun s hrsp => ?_, fun data => decode_of_op_finish (opField_commandWord 2 data), rfl,
    fun s hvariant hrsp hview => ?_⟩
  · refine ⟨s.engine.finishMessage.buf, s.engine.finishMessage.reg, s.engine.finishMessage.sched, ?_⟩
    rw [exec_finish_ready hrsp, Engine.totalLength_toNat]
    rfl
  · have hdigest : messageDigest s.variant [] = _ := hvariant ▸ messageDigest_nil_a
    rw [exec_finish_ready hrsp, Engine.finalHash_of_view_initial hview, hdigest]
    exact ⟨_, rfl⟩

section
variable {s : State}

/-- A command between commands, with a host that takes responses, ends between commands, with one response more if it is
`FINISH` and none otherwise; the host's pins are left as they are (R62, R76). -/
theorem exec_between_commands (i : Instr) (hrsp : s.pins.rspReady = true) (hready : s.engine.phase = .ready) :
    ∃ t : State, exec i s = .next t ∧ t.pins = s.pins ∧ t.engine.phase = .ready ∧
      ∃ ds : List (List Byte), t.responses = s.responses ++ ds ∧ ds.length = [i].count .finish := by
  cases i with
  | reset => exact ⟨_, exec_reset s, rfl, hready, [], (List.append_nil _).symm, rfl⟩
  | absorb b =>
    exact ⟨_, exec_absorb b s, rfl, (Engine.absorbByte_phase _ b).trans hready, [], (List.append_nil _).symm, rfl⟩
  | finish => exact ⟨_, exec_finish_ready hrsp, rfl, rfl, [_], rfl, rfl⟩

/-- The same for a command sequence: one response for each `FINISH`, after the earlier ones (R76). -/
theorem runCommands_between_commands (is : List Instr) (hrsp : s.pins.rspReady = true) (hready : s.engine.phase = .ready) :
    ∃ t : State, runCommands is s = .next t ∧ t.engine.phase = .ready ∧
      ∃ ds : List (List Byte), t.responses = s.responses ++ ds ∧ ds.length = is.count .finish := by
  induction is generalizing s with
  | nil => exact ⟨s, rfl, hready, [], (List.append_nil _).symm, rfl⟩
  | cons i is ih =>
    obtain ⟨t, hexec, hpins, hphase, ds, hds, hcount⟩ := exec_between_commands i hrsp hready
    obtain ⟨u, hrun, huphase, ds', hds', hcount'⟩ := ih (s := t) (hpins ▸ hrsp) hphase
    refine ⟨u, (runCommands_cons_of_next is hexec).trans hrun, huphase, ds ++ ds', ?_, ?_⟩
    · rw [hds', hds, List.append_assoc]
    · rw [List.length_append, hcount, hcount', ← List.count_append, List.singleton_append]

end

/-- Settles O28, by induction over the commands. -/
theorem everyCommandSequenceCompletes : Obligations.EveryCommandSequenceCompletes := by
  intro is s hrsp hready
  obtain ⟨t, hrun, hphase, ds, hds, hcount⟩ := runCommands_between_commands is hrsp hready
  refine ⟨t, hrun, fun t' h => ?_, hphase, ?_, ds, hds.symm⟩
  · rw [hrun] at h
    cases h
    rfl
  · rw [hds, List.length_append, hcount]

end Sys2Proof.Machine
end

-- Whole messages (spec/40_streaming_buffer.md R74, R77, R78; spec/44_padder.md R97, R98)
section
/-! SUPPORT. The length of the padded whole message, the message of an instance and its abstract state, and HASH between
commands. -/

namespace Sys2Proof.Machine

section
variable (v : Variant) (msg : List Byte)

/-- The fewest zero bytes that make whole blocks make `ceil((n + 1 + LF) / BS)` of them (R74, R97). -/
theorem paddedWhole_length :
    (paddedWhole v msg).length
      = (msg.length + 1 + v.lengthFieldBytes + (v.blockBytes - 1)) / v.blockBytes * v.blockBytes := by
  simp only [paddedWhole, List.length_append, List.length_singleton, zeros_length, toBE_length]
  cases v
  all_goals
    simp only [Variant.blockBytes, Variant.lengthFieldBytes]
    omega

/-- The padded whole message is its complete blocks and nothing more (R97). -/
theorem completeBlocks_paddedWhole_flatten : (completeBlocks v (paddedWhole v msg)).flatten = paddedWhole v msg := by
  have hnone : remainder v (paddedWhole v msg) = [] := List.length_eq_zero_iff.1 <| by
    rw [remainder_length, paddedWhole_length, Nat.mul_mod_left]
  simpa [hnone] using completeBlocks_flatten_append_remainder v (paddedWhole v msg)

end

/-- Settles O44: the padded whole message has a whole number of blocks, those of the message and then those of `PAD`. -/
theorem compressionsForAMessage : Obligations.CompressionsForAMessage := by
  intro v msg
  refine ⟨completeBlocks_length v msg, ?_, ?_, completeBlocks_paddedWhole_flatten v msg,
    completeBlocks_paddedWhole v msg⟩
  · rw [completeBlocks_length, paddedWhole_length, Nat.mul_div_cancel _ v.blockBytes_pos]
  · rw [completeBlocks_paddedWhole, List.length_append, completeBlocks_length]

section
variable {v : Variant} {m m' : Engine v} {msg : List Byte}

theorem Engine.Absorbed.wf (h : m.Absorbed msg) : m.wf = true :=
  (Engine.wf_iff m).2 ⟨h.canonical, by rw [h.ready]; rfl⟩

/-- The message an instance stands for fixes its abstract state (R25, R33). -/
theorem Engine.Absorbed.view_eq (h : m.Absorbed msg) (h' : m'.Absorbed msg) : m.view = m'.view :=
  Engine.view_eq_iff.2 ⟨h.hash.trans h'.hash.symm, BitVec.eq_of_toNat_eq (h.fill.trans h'.fill.symm),
    h.len.trans h'.len.symm, h.pending.trans h'.pending.symm, h.ready.trans h'.ready.symm⟩

end

/-- `DIGEST` of chunks one after the other expands to the commands of `DIGEST` of the whole (R77). -/
theorem flatMap_digestCommands (chunks : List (List Byte)) :
    chunks.flatMap digestCommands = digestCommands chunks.flatten := by
  rw [digestCommands, List.map_flatten]
  rfl

/-- Settles O47: both answer the digest of the whole message. -/
theorem streamingEquivalence : Obligations.StreamingEquivalence := by
  refine ⟨flatMap_digestCommands, fun s chunks h hrsp => ?_⟩
  obtain ⟨m1, hstream, -⟩ := runCommands_digest_finish chunks.flatten h hrsp
  obtain ⟨m2, hhash, -⟩ := hashAnswersTheDigestFromAnyState s chunks.flatten h.wf h.ready hrsp
  exact ⟨m1, m2, messageDigest s.variant chunks.flatten, by rwa [flatMap_digestCommands], hhash⟩

/-- `FINISH` from any well-formed instance leaves the empty message, whatever was absorbed before (R69). -/
theorem Engine.absorbed_after_finish {v : Variant} {m : Engine v} (hwf : m.wf = true) :
    Engine.Absorbed { m.finishMessage.initialise with phase := .ready } [] :=
  Engine.absorbed_nil rfl ((Engine.wf_iff _).1 (Engine.wf_finishMessage hwf)).1 rfl rfl rfl

/-- Settles O48: both instances have absorbed the empty message, so their abstract states and the digests of `msg` agree. -/
theorem instanceReuse : Obligations.InstanceReuse := by
  intro s msg hwf hrsp
  have hempty := Engine.absorbed_after_finish hwf
  have hfresh := Engine.initial_absorbed s.variant
  obtain ⟨m1, hreused, -⟩ := hashAnswersTheDigestFromAnyState
    { s with engine := _, responses := s.responses ++ [_] } msg hempty.wf hempty.ready hrsp
  obtain ⟨m2, hnew, -⟩ := hashAnswersTheDigestFromAnyState
    { State.resetOf s.variant with pins := s.pins } msg hfresh.wf hfresh.ready hrsp
  exact ⟨_, m1, m2, _, messageDigest s.variant msg, exec_finish_ready hrsp, hempty.view_eq hfresh, hreused, hnew⟩

end Sys2Proof.Machine
end

-- The message schedule: the sigma functions (spec/41_message_schedule.md R81, R82; spec/42_compression_32bit.md R87;
-- spec/43_compression_64bit.md R94)
section
/-! SUPPORT. The amounts and the worked values of the eight sigma functions; the small ones take zero to zero. -/

namespace Sys2Proof.Machine

/-- Rotations and the shift of the zero word are zero (R81, R82: `sigma0(0) = sigma1(0) = 0`). -/
theorem smallSigma_zero (n : Amounts) {w : Nat} : smallSigma n 0#w = 0#w := by
  simp [smallSigma, rotr, shr]

@[simp] theorem sigma0_zero {v : Variant} : sigma0 0#v.wordBits = 0#v.wordBits := smallSigma_zero _

@[simp] theorem sigma1_zero {v : Variant} : sigma1 0#v.wordBits = 0#v.wordBits := smallSigma_zero _

/-- Settles O9: the amounts by definition, the worked values of R81, R87, R82 and R94 in this order by evaluation. -/
theorem sigmaFunctions : Obligations.SigmaFunctions := by
  refine ⟨fun x => ⟨rfl, rfl, rfl, rfl⟩, fun x => ⟨rfl, rfl, rfl, rfl⟩, ?_, ?_, ?_, ?_⟩
  · decide +kernel
  · decide +kernel
  · decide +kernel
  · decide +kernel

end Sys2Proof.Machine
end

-- PARSE (spec/41_message_schedule.md R80; spec/20_memory.md R40, R41)
section
/-! SUPPORT. The words of a block as numbers and byte by byte, and a length field cut into its two halves. -/

namespace Sys2Proof

/-- The length field is two words (R7). -/
theorem Variant.lengthFieldBytes_eq (v : Variant) : v.lengthFieldBytes = v.wordBytes + v.wordBytes := by cases v <;> rfl

/-- The length field of a block begins at word 14. -/
theorem Variant.blockBytes_sub_lengthFieldBytes (v : Variant) :
    v.blockBytes - v.lengthFieldBytes = v.wordBytes * 14 := by cases v <;> rfl

end Sys2Proof

namespace Sys2Proof.Machine

/-- The high bytes of `BE_(m+n)` are those of the quotient, the low ones do not look at it (R13). -/
theorem toBE_add (m n x : Nat) : toBE (m + n) x = toBE m (x / 2 ^ (8 * n)) ++ toBE n x := by
  induction m with
  | zero => rw [Nat.zero_add]; rfl
  | succ m ih =>
    have hshift : x >>> (8 * (m + n)) = (x / 2 ^ (8 * n)) >>> (8 * m) := by
      rw [← Nat.shiftRight_eq_div_pow, ← Nat.shiftRight_add, Nat.mul_add, Nat.add_comm]
    rw [Nat.succ_add, toBE, ih, hshift]
    rfl

section
variable {v : Variant} {block : List Byte} {i : Nat}

theorem parse_getD (hi : i < 16) : (parse v block).getD i 0 = blockWord v block i := by
  simp [parse, hi]

/-- Reading a word drops nothing of its bytes: they are not more than `WB`. -/
theorem blockWord_toNat (v : Variant) (block : List Byte) (i : Nat) :
    (blockWord v block i).toNat = fromBE ((block.drop (v.wordBytes * i)).take v.wordBytes) := by
  have hlen : 8 * ((block.drop (v.wordBytes * i)).take v.wordBytes).length ≤ v.wordBits := by
    rw [← v.wordBytes_mul_eight, Nat.mul_comm]
    exact Nat.mul_le_mul_right 8 (List.length_take_le _ _)
  rw [blockWord, BitVec.toNat_ofNat,
    Nat.mod_eq_of_lt ((fromBE_lt _).trans_le (Nat.pow_le_pow_right (by decide) hlen))]

/-- Byte `j` of word `i` is byte `WB * i + j` of the block (R41, R80). -/
theorem blockWord_byte {j : Nat} (hblock : v.wordBytes * i + v.wordBytes ≤ block.length) (hj : j < v.wordBytes) :
    (blockWord v block i).toNat / 2 ^ (8 * (v.wordBytes - 1 - j)) % 2 ^ 8
      = (block.getD (v.wordBytes * i + j) 0).toNat := by
  have hlen : ((block.drop (v.wordBytes * i)).take v.wordBytes).length = v.wordBytes := by
    rw [List.length_take, List.length_drop]; omega
  have hbytes := toBE_fromBE ((block.drop (v.wordBytes * i)).take v.wordBytes)
  rw [hlen] at hbytes
  rw [← toBE_getD_toNat _ hj, blockWord_toNat, hbytes]
  simp [List.getD_eq_getElem?_getD, List.getElem?_take_of_lt hj]

/-- A word whose bytes are `BE_WB(x)` has the value `x` modulo `2^W`. -/
theorem blockWord_toNat_of_toBE {x : Nat} (h : (block.drop (v.wordBytes * i)).take v.wordBytes = toBE v.wordBytes x) :
    (blockWord v block i).toNat = x % 2 ^ v.wordBits := by
  rw [blockWord_toNat, h, fromBE_toBE, Nat.mul_comm, v.wordBytes_mul_eight]

/-- A block that ends in a length field has its halves in words 14 and 15 (R80). -/
theorem blockWord_lengthField {bits : Nat} (hbits : bits < 2 ^ (8 * v.lengthFieldBytes))
    (h : block.drop (v.blockBytes - v.lengthFieldBytes) = toBE v.lengthFieldBytes bits) :
    (blockWord v block 14).toNat = bits / 2 ^ v.wordBits ∧ (blockWord v block 15).toNat = bits % 2 ^ v.wordBits := by
  rw [v.blockBytes_sub_lengthFieldBytes, v.lengthFieldBytes_eq, toBE_add, Nat.mul_comm 8, v.wordBytes_mul_eight] at h
  rw [v.lengthFieldBytes_eq, Nat.mul_add, Nat.mul_comm 8, v.wordBytes_mul_eight, Nat.pow_add] at hbits
  have hhigh : (block.drop (v.wordBytes * 14)).take v.wordBytes = toBE v.wordBytes (bits / 2 ^ v.wordBits) := by
    rw [h, List.take_left' (toBE_length _ _)]
  have hlow : (block.drop (v.wordBytes * 15)).take v.wordBytes = toBE v.wordBytes bits := by
    rw [Nat.mul_succ, ← List.drop_drop, h, List.drop_left' (toBE_length _ _),
      List.take_of_length_le (toBE_length _ _).le]
  exact ⟨(blockWord_toNat_of_toBE hhigh).trans (Nat.mod_eq_of_lt (Nat.div_lt_of_lt_mul hbits)),
    blockWord_toNat_of_toBE hlow⟩

end

/-- Settles O10: each word byte by byte, and the length field cut in two. -/
theorem parseReadsBigEndianWords : Obligations.ParseReadsBigEndianWords := by
  intro v block hblock
  refine ⟨parse_length v block, fun i j hi hj => ?_, fun bits hbits hfield => ?_⟩
  · have hsize : v.wordBytes * i + v.wordBytes ≤ v.wordBytes * 16 := Nat.mul_le_mul_left _ (Nat.succ_le_of_lt hi)
    have hwords : v.wordBytes * 16 = v.blockBytes := by cases v <;> rfl
    rw [parse_getD hi, blockWord_byte (by omega) hj]
  · rw [parse_getD (by decide), parse_getD (by decide)]
    exact blockWord_lengthField hbits hfield

end Sys2Proof.Machine
end

-- EXPAND (spec/41_message_schedule.md R79, R83)
section
/-! SUPPORT. EXPAND word by word: what it has written stays, so every stage is read back from the finished schedule. -/

namespace Sys2Proof

theorem Variant.sixteen_le_rounds (v : Variant) : 16 ≤ v.rounds := by cases v <;> decide

end Sys2Proof

namespace Sys2Proof.Machine

section
variable {v : Variant}

/-- The last word EXPAND writes comes from the words before it (R83). -/
theorem expand_succ (k : Nat) (earlier : List (Word v)) :
    expand (k + 1) earlier = nextWord (expand k earlier) :: expand k earlier := by
  induction k generalizing earlier with
  | zero => rfl
  | succ k ih => exact ih (nextWord earlier :: earlier)

/-- Further words go in front of those written so far and change none of them. -/
theorem drop_expand_add (k m : Nat) (earlier : List (Word v)) :
    (expand (k + m) earlier).drop m = expand k earlier := by
  induction m with
  | zero => rfl
  | succ m ih => rw [← Nat.add_assoc, expand_succ, List.drop_succ_cons, ih]

/-- EXPAND after `k` words, read back from the schedule: its entry `j` is `SCHED[t]` for `j + t = 15 + k`. -/
theorem expand_getD_eq_schedule {k j t : Nat} (block : List Byte) (hk : 16 + k ≤ v.rounds) (hplace : j + t = 15 + k) :
    (expand k (parse v block).reverse).getD j 0 = (schedule v block).getD t 0 := by
  obtain ⟨m, hm⟩ := Nat.exists_eq_add_of_le hk
  have hwords : v.rounds - 16 = k + m := by omega
  have hlen : (expand (k + m) (parse v block).reverse).length = 16 + (k + m) := by
    rw [expand_length, List.length_reverse, parse_length]
  rw [← drop_expand_add k m, schedule, hwords, List.getD_eq_getElem?_getD, List.getD_eq_getElem?_getD,
    List.getElem?_drop, List.getElem?_reverse' (i := t) (j := m + j) (by omega)]

/-- The first sixteen words are PARSE's (R83). -/
theorem schedule_getD_of_lt {i : Nat} (block : List Byte) (hi : i < 16) :
    (schedule v block).getD i 0 = (parse v block).getD i 0 := by
  rw [← expand_getD_eq_schedule (k := 0) (j := 15 - i) block v.sixteen_le_rounds (by omega), expand,
    List.getD_eq_getElem?_getD, List.getD_eq_getElem?_getD,
    List.getElem?_reverse' (j := i) (by rw [parse_length]; omega)]

/-- Every later word by the recurrence (R83). -/
theorem schedule_getD_recurrence {t : Nat} (block : List Byte) (ht : 16 ≤ t) (htN : t < v.rounds) :
    (schedule v block).getD t 0 =
      sigma1 ((schedule v block).getD (t - 2) 0) + (schedule v block).getD (t - 7) 0
        + sigma0 ((schedule v block).getD (t - 15) 0) + (schedule v block).getD (t - 16) 0 := by
  obtain ⟨k, rfl⟩ := Nat.exists_eq_add_of_le ht
  have hstage {j t : Nat} (hplace : j + t = 15 + k) := expand_getD_eq_schedule block htN.le hplace
  calc (schedule v block).getD (16 + k) 0
      = (expand (k + 1) (parse v block).reverse).getD 0 0 := (expand_getD_eq_schedule block htN (by omega)).symm
    _ = nextWord (expand k (parse v block).reverse) := by rw [expand_succ, List.getD_cons_zero]
    _ = _ := by
      rw [nextWord, hstage (j := 1) (t := 16 + k - 2) (by omega), hstage (j := 6) (t := 16 + k - 7) (by omega),
        hstage (j := 14) (t := 16 + k - 15) (by omega), hstage (j := 15) (t := 16 + k - 16) (by omega)]

theorem fromBE_zeros (n : Nat) : fromBE (zeros n) = 0 := by
  induction n with
  | zero => rfl
  | succ n ih => rw [zeros, List.replicate_succ, fromBE_cons, ← zeros, ih]; simp

theorem blockWord_zeros (n i : Nat) : blockWord v (zeros n) i = 0 := by
  apply BitVec.eq_of_toNat_eq
  rw [blockWord_toNat, zeros, List.drop_replicate, List.take_replicate]
  exact fromBE_zeros _

/-- Zero words expand to zero words (R83). -/
theorem expand_replicate_zero (k n : Nat) :
    expand k (List.replicate n (0 : Word v)) = List.replicate (n + k) 0 := by
  induction k with
  | zero => rfl
  | succ k ih =>
    have hnext : nextWord (List.replicate (n + k) (0 : Word v)) = 0 := by simp [nextWord]
    rw [expand_succ, ih, hnext, ← List.replicate_succ, Nat.add_assoc]

/-- The all-zero block has the all-zero schedule (R80, R83). -/
theorem schedule_zeros (v : Variant) (n : Nat) : schedule v (zeros n) = List.replicate v.rounds 0 := by
  have hparse : parse v (zeros n) = List.replicate 16 0 := by
    rw [parse, List.map_congr_left fun i _ => blockWord_zeros n i]
    rfl
  rw [schedule, hparse, List.reverse_replicate, expand_replicate_zero, List.reverse_replicate,
    Nat.add_sub_of_le v.sixteen_le_rounds]

end

/-- Settles O11: every stage of EXPAND is a suffix of the finished list, so its next word is the recurrence's. -/
theorem scheduleFollowsTheRecurrence : Obligations.ScheduleFollowsTheRecurrence := by
  intro v block
  refine ⟨schedule_length v block, fun i hi => schedule_getD_of_lt block hi,
    fun t ht htN => schedule_getD_recurrence block ht htN, fun hzero x hx => ?_⟩
  rw [hzero, schedule_zeros] at hx
  exact List.eq_of_mem_replicate hx

end Sys2Proof.Machine
end

-- The constant tables (spec/42_compression_32bit.md R85, R86; spec/43_compression_64bit.md R92, R93)
section
/-! SUPPORT. One test of a whole table against the primes it is made from, and what the test says of each entry. -/

namespace Sys2Proof.Machine

/-- Every word of a table holds the first `w` bits of the fractional part of the `k`-th root of the prime in its place, with
an integer part up to `bound`: the tables' definition as a test that goes through the primes once. -/
def rootFractionTable (w k bound : Nat) (primes words : List Nat) : Bool :=
  (primes.zip words).all fun e => (List.range (bound + 1)).any fun n => isRootFraction w k e.1 n e.2

theorem rootFractionTable_entry {w k bound i : Nat} {primes words : List Nat}
    (h : rootFractionTable w k bound primes words = true) (hprimes : i < primes.length) (hwords : i < words.length) :
    ∃ n, n ≤ bound ∧ isRootFraction w k (primes.getD i 0) n (words.getD i 0) = true := by
  have hmem : (primes[i], words[i]) ∈ primes.zip words :=
    List.mem_iff_getElem.2 ⟨i, by rw [List.length_zip]; omega, List.getElem_zip⟩
  obtain ⟨n, hn, hroot⟩ := List.any_eq_true.1 (List.all_eq_true.1 h _ hmem)
  rw [List.getD_eq_getElem _ _ hprimes, List.getD_eq_getElem _ _ hwords]
  exact ⟨n, Nat.lt_succ_iff.1 (List.mem_range.1 hn), hroot⟩

theorem firstPrimes_length : firstPrimes.length = 80 := by decide +kernel

/-- The square roots of R85 and R92; those of the first eight primes are below 5. -/
theorem initialHash_rootFractionTable (v : Variant) :
    rootFractionTable v.wordBits 2 20 firstPrimes ((initialHash v).toList.map BitVec.toNat) = true := by
  cases v
  · decide +kernel
  · decide +kernel

/-- The cube roots of R86 and R93; those of the first 80 primes are below 8. -/
theorem roundConstants_rootFractionTable (v : Variant) :
    rootFractionTable v.wordBits 3 7 firstPrimes ((roundConstants v).map BitVec.toNat) = true := by
  cases v
  · decide +kernel
  · decide +kernel

/-- Settles O2: each table passes the test, so each entry is the root fraction of its prime. -/
theorem constantTablesAreRootFractions : Obligations.ConstantTablesAreRootFractions := by
  have hrounds (v : Variant) : v.rounds ≤ 80 := by cases v <;> decide
  refine ⟨firstPrimes_length, fun v i hi => ?_, fun v t ht => ?_⟩
  · refine rootFractionTable_entry (initialHash_rootFractionTable v) ?_ ?_
    · rw [firstPrimes_length]; omega
    · rwa [List.length_map, Words8.toList_length]
  · refine rootFractionTable_entry (roundConstants_rootFractionTable v) ?_ ?_
    · rw [firstPrimes_length]; exact ht.trans_le (hrounds v)
    · rwa [List.length_map, roundConstants_length]

end Sys2Proof.Machine
end

-- Choice and majority (spec/42_compression_32bit.md R88)
section
/-! SUPPORT. `Ch` and `Maj` bit by bit; every identity of words is one of bits. -/

namespace Sys2Proof.Machine

section
variable {w : Nat} (x y z : BitVec w)

theorem getLsbD_Ch {i : Nat} (hi : i < w) :
    (Ch x y z).getLsbD i = if x.getLsbD i then y.getLsbD i else z.getLsbD i := by
  rw [Ch, BitVec.getLsbD_xor, BitVec.getLsbD_and, BitVec.getLsbD_and, BitVec.getLsbD_not, decide_eq_true hi]
  cases x.getLsbD i
  · simp
  · simp

theorem getLsbD_Maj (i : Nat) :
    (Maj x y z).getLsbD i = decide (2 ≤ (x.getLsbD i).toNat + (y.getLsbD i).toNat + (z.getLsbD i).toNat) := by
  have hbits : ∀ a b c : Bool, ((a && b) ^^ (a && c) ^^ (b && c)) = decide (2 ≤ a.toNat + b.toNat + c.toNat) := by decide
  rw [Maj, BitVec.getLsbD_xor, BitVec.getLsbD_xor, BitVec.getLsbD_and, BitVec.getLsbD_and, BitVec.getLsbD_and, hbits]

theorem Ch_zero : Ch 0 y z = z :=
  BitVec.eq_of_getLsbD_eq fun i hi => by rw [getLsbD_Ch _ _ _ hi]; simp

theorem Ch_allOnes : Ch (BitVec.allOnes w) y z = y :=
  BitVec.eq_of_getLsbD_eq fun i hi => by rw [getLsbD_Ch _ _ _ hi]; simp [hi]

theorem Ch_self : Ch x y y = y :=
  BitVec.eq_of_getLsbD_eq fun i hi => by rw [getLsbD_Ch _ _ _ hi, ite_self]

theorem Maj_self : Maj x x z = x := by
  have hbits : ∀ a c : Bool, decide (2 ≤ a.toNat + a.toNat + c.toNat) = a := by decide
  exact BitVec.eq_of_getLsbD_eq fun i _ => by rw [getLsbD_Maj, hbits]

theorem Maj_zero_allOnes : Maj 0 (BitVec.allOnes w) z = z := by
  have hbits : ∀ c : Bool, decide (2 ≤ false.toNat + true.toNat + c.toNat) = c := by decide
  exact BitVec.eq_of_getLsbD_eq fun i hi => by
    rw [getLsbD_Maj, BitVec.getLsbD_allOnes, decide_eq_true hi, BitVec.ofNat_eq_ofNat, BitVec.getLsbD_zero, hbits]

theorem Maj_swap_left : Maj x y z = Maj y x z :=
  BitVec.eq_of_getLsbD_eq fun i _ => by rw [getLsbD_Maj, getLsbD_Maj, Nat.add_comm (x.getLsbD i).toNat]

theorem Maj_swap_right : Maj x y z = Maj x z y :=
  BitVec.eq_of_getLsbD_eq fun i _ => by rw [getLsbD_Maj, getLsbD_Maj, Nat.add_right_comm]

end

/-- Settles O8: the bits, the identities that follow from them, and the asymmetry and worked values by evaluation. -/
theorem choiceAndMajority : Obligations.ChoiceAndMajority := by
  refine ⟨fun w x y z => ⟨rfl, rfl, fun i hi => ⟨getLsbD_Ch x y z hi, getLsbD_Maj x y z i⟩, Ch_zero y z, Ch_allOnes y z,
    Ch_self x y, Maj_self x z, Maj_zero_allOnes z, Maj_swap_left x y z, Maj_swap_right x y z⟩, ?_, ?_, ?_⟩
  · decide
  · decide
  · decide

end Sys2Proof.Machine
end

-- ROUND and COMPRESS (spec/42_compression_32bit.md R89 to R91; spec/43_compression_64bit.md R95, R96)
section
/-! SUPPORT. The rounds over two lists are the rounds over the index `t`, ascending. -/

namespace Sys2Proof.Machine

section
variable {v : Variant}

theorem rounds_eq_foldl_range {n : Nat} {ks ss : List (Word v)} (hks : ks.length = n) (hss : ss.length = n) (r : Words8 v) :
    rounds ks ss r = (List.range n).foldl (fun r t => round (ks.getD t 0) (ss.getD t 0) r) r := by
  induction n generalizing ks ss r with
  | zero =>
    rw [List.length_eq_zero_iff.1 hks]
    rfl
  | succ n ih =>
    obtain ⟨k, ks, rfl⟩ := List.exists_cons_of_length_eq_add_one hks
    obtain ⟨s, ss, rfl⟩ := List.exists_cons_of_length_eq_add_one hss
    rw [rounds, ih (Nat.succ.inj hks) (Nat.succ.inj hss), List.range_succ_eq_map, List.foldl_cons, List.foldl_map]
    rfl

/-- Step 4: round `t` takes `K[t]` and `SCHED[t]` (R90, R96). -/
theorem roundsOf_eq_foldl_range (h : Words8 v) (block : List Byte) :
    roundsOf h block = (List.range v.rounds).foldl
      (fun r t => round ((roundConstants v).getD t 0) ((schedule v block).getD t 0) r) h :=
  rounds_eq_foldl_range (roundConstants_length v) (schedule_length v block) h

end

/-- Settles O12: the assignment by definition, round 0 of the empty message by evaluation for each variant. -/
theorem roundIsTheSimultaneousAssignment : Obligations.RoundIsTheSimultaneousAssignment := by
  refine ⟨fun v k s r => rfl, ?_, ?_⟩
  · decide +kernel
  · decide +kernel

/-- Settles O13: the fold over `t`, the fields COMPRESS writes and leaves, and the worked values of R90 and R96 by
evaluation. -/
theorem compressIsTheFiveSteps : Obligations.CompressIsTheFiveSteps := by
  refine ⟨fun v m block => ?_, ?_, ?_, ?_, ?_, ?_⟩
  · intro reg c
    have hreg : roundsOf m.h block = reg := roundsOf_eq_foldl_range m.h block
    refine ⟨hreg, compress_sched_toList m block, ?_, rfl, rfl, rfl, rfl, fun m' hh => ?_⟩
    · rw [← hreg]
      rfl
    · rw [compress_h, hh]
      rfl
  · decide +kernel
  · decide +kernel
  · decide +kernel
  · decide +kernel
  · decide +kernel

end Sys2Proof.Machine
end

-- The padder (spec/44_padder.md R97 to R101)
section
/-! SUPPORT. The number of padded blocks and of zeros in either case, the two blocks of a long remainder, and the length field
as a shift of the length counter. -/

namespace Sys2Proof

/-- The length counter has the three bits that its shift to a bit length moves out (R101). -/
theorem Variant.three_le_lenBits (v : Variant) : 3 ≤ v.lenBits := by cases v <;> decide

end Sys2Proof

namespace Sys2Proof.Machine

theorem zeros_add (m n : Nat) : zeros (m + n) = zeros m ++ zeros n := List.replicate_add m n _

theorem zeros_getD (n i : Nat) : (zeros n).getD i 0 = 0 := by
  rw [zeros, List.getD_eq_getElem?_getD, List.getElem?_replicate]
  split <;> rfl

/-- What stands before the length field of a padded message: the bytes, the marker and the zeros (R97). -/
theorem length_append_marker_zeros (x : List Byte) (k : Nat) : (x ++ [0x80] ++ zeros k).length = x.length + 1 + k := by
  rw [List.length_append, List.length_append, List.length_singleton, zeros_length]

section
variable {v : Variant}

/-- A sequence of whole blocks is its complete blocks. -/
theorem completeBlocks_flatten_of_mod {x : List Byte} (h : x.length % v.blockBytes = 0) :
    (completeBlocks v x).flatten = x := by
  have hnone : remainder v x = [] := List.length_eq_zero_iff.1 <| by rw [remainder_length, h]
  simpa [hnone] using completeBlocks_flatten_append_remainder v x

/-- One block takes the remainder, the marker and the length field as long as they fit (R98). -/
theorem padBlockCount_eq_one_iff {r : Nat} : padBlockCount v r = 1 ↔ r + 1 + v.lengthFieldBytes ≤ v.blockBytes := by
  have hmax := v.oneBlockMax_add
  unfold padBlockCount
  split
  · simp only [true_iff]; omega
  · simp only [OfNat.ofNat_ne_one, false_iff]; omega

/-- The zeros fill up the whole blocks (R97, R100). -/
theorem padZeroCount_add {r : Nat} (h : r < v.blockBytes) :
    r + 1 + padZeroCount v r + v.lengthFieldBytes = padBlockCount v r * v.blockBytes := by
  have hlen := paddedMessage_length v (rem := zeros r) 0 (by rwa [zeros_length])
  rwa [paddedMessage, List.length_append, length_append_marker_zeros, toBE_length, zeros_length] at hlen

theorem padZeroCount_of_le {r : Nat} (h : r ≤ v.oneBlockMax) : padZeroCount v r = v.oneBlockMax - r := by
  have hmax := v.oneBlockMax_add
  rw [padZeroCount, padBlockCount, if_pos h]
  omega

theorem padZeroCount_of_gt {r : Nat} (h : v.oneBlockMax < r) : padZeroCount v r = v.blockBytes + v.oneBlockMax - r := by
  have hmax := v.oneBlockMax_add
  rw [padZeroCount, padBlockCount, if_neg (Nat.not_le.2 h)]
  omega

variable {rem : List Byte} (total : Nat)

/-- `PAD` compresses `nblk` blocks (R98, R99). -/
theorem padBlocks_length (h : rem.length < v.blockBytes) : (padBlocks v rem total).length = padBlockCount v rem.length := by
  rw [padBlocks_eq_completeBlocks total h, completeBlocks_length, paddedMessage_length v total h,
    Nat.mul_div_cancel _ v.blockBytes_pos]

theorem padBlocks_flatten (h : rem.length < v.blockBytes) : (padBlocks v rem total).flatten = paddedMessage v rem total := by
  rw [padBlocks_eq_completeBlocks total h, completeBlocks_flatten_of_mod]
  rw [paddedMessage_length v total h, Nat.mul_mod_left]

/-- The two blocks of a long remainder: the zeros of the padded message are cut at the block boundary (R100). -/
theorem padBlocks_of_gt (h : rem.length < v.blockBytes) (hlong : v.oneBlockMax < rem.length) :
    padBlocks v rem total =
      [rem ++ [0x80] ++ zeros (v.blockBytes - rem.length - 1),
       zeros (v.blockBytes - v.lengthFieldBytes) ++ toBE v.lengthFieldBytes (bitLength v total)] := by
  have hmax := v.oneBlockMax_add
  have hcut : padZeroCount v rem.length
      = (v.blockBytes - rem.length - 1) + (v.blockBytes - v.lengthFieldBytes) := by
    rw [padZeroCount_of_gt hlong]
    omega
  have hsplit : paddedMessage v rem total
      = (rem ++ [0x80] ++ zeros (v.blockBytes - rem.length - 1))
        ++ (zeros (v.blockBytes - v.lengthFieldBytes) ++ toBE v.lengthFieldBytes (bitLength v total)) := by
    rw [paddedMessage, hcut, zeros_add]
    simp only [List.append_assoc]
  have hfirst : (rem ++ [0x80] ++ zeros (v.blockBytes - rem.length - 1)).length = v.blockBytes := by
    rw [length_append_marker_zeros]
    omega
  have hsecond : (zeros (v.blockBytes - v.lengthFieldBytes)
      ++ toBE v.lengthFieldBytes (bitLength v total)).length = v.blockBytes := by
    rw [List.length_append, zeros_length, toBE_length]
    omega
  rw [padBlocks_eq_completeBlocks total h, hsplit, (completeBlocks_cons_block _ hfirst).1,
    (completeBlocks_of_eq v hsecond).1]

/-- Everything of the padded message between the marker and the length field is zero (R97, R100). -/
theorem paddedMessage_getD_zero {i : Nat} (hlow : rem.length < i) (hhigh : i < rem.length + 1 + padZeroCount v rem.length) :
    (paddedMessage v rem total).getD i 0 = 0x00 := by
  rw [paddedMessage, List.getD_append _ _ _ _ (by rwa [length_append_marker_zeros]),
    List.getD_append_right _ _ _ _ (by simpa using hlow), zeros_getD]

/-- The length field is what comes after remainder, marker and zeros (R97, R101). -/
theorem paddedMessage_drop (v : Variant) (rem : List Byte) (total : Nat) :
    (paddedMessage v rem total).drop (rem.length + 1 + padZeroCount v rem.length)
      = toBE v.lengthFieldBytes (bitLength v total) := by
  rw [paddedMessage, List.drop_left' (length_append_marker_zeros _ _)]

/-- The bit length is the length counter shifted left by 3 in its own width (R101). -/
theorem bitLength_toNat (total : BitVec v.lenBits) : bitLength v total.toNat = (total <<< 3).toNat := by
  rw [bitLength, BitVec.toNat_shiftLeft, Nat.shiftLeft_eq, ← v.lenBits_eq]

theorem bitLength_of_lt (h : total < 2 ^ (v.lenBits - 3)) : bitLength v total = total * 8 := by
  have hbits : 2 ^ v.lenBits = 2 ^ (v.lenBits - 3) * 8 := (Nat.pow_sub_mul_pow 2 v.three_le_lenBits).symm
  rw [bitLength, ← v.lenBits_eq, Nat.mod_eq_of_lt (by omega)]

/-- The field keeps whole bytes: 8 divides its modulus (R101). -/
theorem bitLength_mod_eight (v : Variant) (total : Nat) : bitLength v total % 8 = 0 := by
  have hdvd : 8 ∣ 2 ^ v.lenBits := Nat.pow_dvd_pow 2 v.three_le_lenBits
  rw [bitLength, ← v.lenBits_eq, Nat.mod_mod_of_dvd _ hdvd, Nat.mul_mod_left]

end

/-- Settles O14: `PAD` makes the complete blocks of the padded message, `nblk` of them. -/
theorem padMakesOneOrTwoWholeBlocks : Obligations.PadMakesOneOrTwoWholeBlocks := by
  intro v rem total h
  have hcount := padBlocks_length total h
  refine ⟨fun hv => ?_, fun hv => ?_, ?_, ?_, padBlocks_flatten total h⟩
  · subst hv
    exact hcount
  · subst hv
    exact hcount
  · rw [hcount, padBlockCount_eq_one_iff]
  · rw [padBlocks_eq_completeBlocks total h]
    exact length_of_mem_completeBlocks v _

/-- Settles O15: the zeros end where the length field begins, `LF` bytes before the end of the last block. -/
theorem paddedMessageLayout : Obligations.PaddedMessageLayout := by
  intro v rem total h p n
  have hsum : rem.length + 1 + padZeroCount v rem.length + v.lengthFieldBytes = n := padZeroCount_add h
  have hfield : n - v.lengthFieldBytes = rem.length + 1 + padZeroCount v rem.length := by rw [← hsum, Nat.add_sub_cancel]
  refine ⟨paddedMessage_length v total h, ?_, ?_, fun i hlow hhigh => ?_, ?_, hsum, padZeroCount_of_le,
    fun hlong => ⟨padZeroCount_of_gt hlong, padBlocks_of_gt total h hlong⟩⟩
  · simp [p, paddedMessage]
  · simp [p, paddedMessage]
  · exact paddedMessage_getD_zero total hlow (hfield ▸ hhigh)
  · rw [hfield]
    exact paddedMessage_drop v rem total

/-- Settles O16: the counter and the field have one width, of at least three bits. -/
theorem lengthFieldIsTheBitLength : Obligations.LengthFieldIsTheBitLength := by
  intro v total
  refine ⟨rfl, bitLength_toNat total, bitLength_of_lt total.toNat, bitLength_mod_eight v total.toNat, fun rem => ?_⟩
  exact ⟨rem ++ [0x80] ++ zeros (padZeroCount v rem.length), length_append_marker_zeros _ _, rfl⟩

end Sys2Proof.Machine
end

-- SERIALIZE (spec/45_facade_output.md R104, R105)
section
/-! SUPPORT. Where the pieces of one length stand in their concatenation, and the bytes of a digest. -/

namespace Sys2Proof.Machine

/-- Pieces of length `n` put together: place `n * i + j` is place `j` of piece `i`. -/
theorem getD_flatMap_of_length {α β : Type} {f : α → List β} {n : Nat} (hf : ∀ x, (f x).length = n) (a : α) (d : β)
    {l : List α} {i j : Nat} (hi : i < l.length) (hj : j < n) :
    (l.flatMap f).getD (n * i + j) d = (f (l.getD i a)).getD j d := by
  induction l generalizing i with
  | nil => cases hi
  | cons x l ih =>
    rw [List.flatMap_cons]
    cases i with
    | zero =>
      rw [Nat.mul_zero, Nat.zero_add, List.getD_append _ _ _ _ (by rwa [hf]), List.getD_cons_zero]
    | succ i =>
      have hplace : n * (i + 1) + j = n + (n * i + j) := by rw [Nat.mul_succ, Nat.add_right_comm, Nat.add_comm]
      rw [hplace, List.getD_append_right _ _ _ _ (by rw [hf]; exact Nat.le_add_right _ _), hf, Nat.add_sub_cancel_left,
        ih (Nat.lt_of_succ_lt_succ hi), List.getD_cons_succ]

/-- Byte `WB * i + j` of the digest is byte `j` of `BE_WB(H[i])` (R104). -/
theorem serialize_getD {v : Variant} (h : Words8 v) {i j : Nat} (hi : i < 8) (hj : j < v.wordBytes) :
    (serialize h).getD (v.wordBytes * i + j) 0 = (toBE v.wordBytes (h.toList.getD i 0).toNat).getD j 0 :=
  getD_flatMap_of_length (fun x : Word v => toBE_length v.wordBytes x.toNat) 0 0 hi hj

/-- Settles O17: the digest is made of eight pieces of `WB` bytes, and `BE_WB` puts the most significant byte first. -/
theorem serializeIsBigEndianInStateOrder : Obligations.SerializeIsBigEndianInStateOrder := by
  refine fun v h => ⟨serialize_length h, fun i j hi hj => ?_⟩
  rw [serialize_getD h hi hj, toBE_getD_toNat _ hj]

end Sys2Proof.Machine
end

-- Exceptions: none exists (spec/60_exceptions.md R109, R113; spec/70_reset_and_hazards.md R120, R121, R124)
section
/-! SUPPORT. The port events of reset, release and an idle host, what a step can answer, and the host's duty along a run. -/

namespace Sys2Proof.Machine

section
variable {p : HostPins} {ph : Phase} {w : BitVec 10} {s : State}

theorem portEvent_rst (ph : Phase) (hrst : p.rst = true) : portEvent p ph = .hardwareReset := by simp [portEvent, hrst]

theorem portEvent_inReset (hrst : p.rst = false) : portEvent p .inReset = .releaseReset := by simp [portEvent, hrst]

theorem portEvent_idle (hrst : p.rst = false) (hvalid : p.cmdValid = false) : portEvent p .ready = .idle := by
  simp [portEvent, hrst, hvalid]

/-- A step with `rst` high is a hardware reset and nothing else (R113, R121). -/
theorem step_rst (hrst : s.sample.pins.rst = true) : step s = .next s.sample.hardwareReset := by
  rw [step, portEvent_rst _ hrst]
  rfl

/-- The first step with `rst` low ends the reset and accepts nothing (R121). -/
theorem step_inReset (hreset : s.engine.phase = .inReset) (hrst : s.sample.pins.rst = false) :
    step s = .next s.sample.releaseReset := by
  rw [step, State.sample_engine, hreset, portEvent_inReset hrst]
  rfl

/-- A step between commands with nothing offered only samples the pins (R120). -/
theorem step_idle (hready : s.engine.phase = .ready) (hrst : s.sample.pins.rst = false)
    (hvalid : s.sample.pins.cmdValid = false) : step s = .next s.sample := by
  rw [step, State.sample_engine, hready, portEvent_idle hrst hvalid]
  rfl

/-- An accepted or abandoned word is the one offered at the ports (R59). -/
theorem portEvent_command (h : portEvent p ph = .accept w ∨ portEvent p ph = .abandon w) :
    p.cmdValid = true ∧ p.cmd = w := by
  unfold portEvent at h
  split at h
  · simp at h
  · split at h
    · simp at h
    · split at h <;> simp at h
    · split at h
      · rename_i hvalid
        split at h <;> exact ⟨hvalid, by simpa using h⟩
      · simp at h

end

@[simp] theorem State.takeResponse_script (s : State) : s.takeResponse.script = s.script := by
  unfold State.takeResponse
  split <;> rfl

/-- An accepted word leaves a next state and the script alone, unless it is reserved (R58, R76). -/
theorem acceptCommand_outcome (w : BitVec 10) (s : State) :
    (∃ t, acceptCommand w s = .next t ∧ t.script = s.script) ∨
      (opField w = 3 ∧ acceptCommand w s = .refused (.reservedCommand w)) := by
  obtain ⟨i, -, h⟩ | ⟨r, hdecode, -⟩ := acceptCommand_cases w s
  · obtain ⟨m, rs, hexec⟩ := exec_next i s
    exact .inl ⟨_, h.trans hexec, rfl⟩
  · have hop := exists_decode_eq_error_iff.1 ⟨_, hdecode⟩
    exact .inr ⟨hop, acceptCommand_reserved hop⟩

/-- An abandoned word likewise (R58, R129). -/
theorem abandonCommand_outcome (w : BitVec 10) (s : State) :
    (∃ t, abandonCommand w s = .next t ∧ t.script = s.script) ∨
      (opField w = 3 ∧ abandonCommand w s = .refused (.reservedCommand w)) := by
  obtain ⟨i, -, h⟩ | ⟨r, hdecode, -⟩ := abandonCommand_cases w s
  · exact .inl ⟨_, h, rfl⟩
  · have hop := exists_decode_eq_error_iff.1 ⟨_, hdecode⟩
    exact .inr ⟨hop, abandonCommand_reserved hop⟩

/-- The two answers of a step: a next state with one script entry taken, or the refusal of a reserved word offered (R58,
R109). -/
theorem step_outcome (s : State) :
    (∃ t, step s = .next t ∧ t.script = s.sample.script) ∨
      (s.sample.pins.cmdValid = true ∧ opField s.sample.pins.cmd = 3 ∧
        step s = .refused (.reservedCommand s.sample.pins.cmd)) := by
  unfold step
  obtain h | h | h | h | ⟨w, he, h⟩ | ⟨w, he, h⟩ :=
    runEvent_cases (portEvent s.sample.pins s.sample.engine.phase) s.sample
  · exact .inl ⟨_, h, rfl⟩
  · exact .inl ⟨_, h, rfl⟩
  · exact .inl ⟨_, h, s.sample.takeResponse_script⟩
  · exact .inl ⟨_, h, rfl⟩
  · obtain ⟨hvalid, rfl⟩ := portEvent_command (.inl he)
    rw [h]
    exact (acceptCommand_outcome _ _).imp_right (.intro hvalid)
  · obtain ⟨hvalid, rfl⟩ := portEvent_command (.inr he)
    rw [h]
    exact (abandonCommand_outcome _ _).imp_right (.intro hvalid)

/-- The host's duty is one on the script only. -/
theorem State.admitted_congr {s t : State} (h : t.script = s.script) : t.admitted = s.admitted := by
  rw [State.admitted, State.admitted, h]

/-- A script without a reserved word: none is offered at the next step, and none after it. -/
theorem State.admitted_iff (s : State) :
    s.admitted = true ↔
      (s.sample.pins.cmdValid = true → admittedWord s.sample.pins.cmd = true) ∧ s.sample.admitted = true := by
  simp only [State.admitted, State.sample_pins, State.sample_script]
  cases s.script with
  | nil => simp [HostPins.idle]
  | cons p rest => simp [imp_iff_not_or]

theorem step_of_admitted {s : State} (h : s.admitted = true) : ∃ t, step s = .next t ∧ t.admitted = true := by
  obtain ⟨hword, hrest⟩ := s.admitted_iff.1 h
  obtain ⟨t, hstep, hscript⟩ | ⟨hvalid, hop, -⟩ := step_outcome s
  · exact ⟨t, hstep, (State.admitted_congr hscript).trans hrest⟩
  · exact absurd hop (admittedWord_iff.1 (hword hvalid))

theorem run_of_admitted (k : Nat) {s : State} (h : s.admitted = true) :
    ∃ t : State, Host.Core.run core k s = .next t ∧ t.admitted = true := by
  induction k generalizing s with
  | zero => exact ⟨s, rfl, h⟩
  | succ k ih =>
    obtain ⟨t, hstep, ht⟩ := step_of_admitted h
    rw [run_succ_of_next (M := core) hstep]
    exact ih ht

theorem step_ne_fault (s : State) (f : Fault) : step s ≠ .fault f := by
  obtain ⟨t, h, -⟩ | ⟨-, -, h⟩ := step_outcome s
  all_goals
    rw [h]
    nofun

/-- Settles O37: every step from an admitted script leaves an admitted script, and no answer of a step is a fault. -/
theorem admittedHostNeverStopsTheMachine : Obligations.AdmittedHostNeverStopsTheMachine :=
  ⟨fun k _ => run_of_admitted k, step_ne_fault⟩

/-- Settles O32: the step with `rst` high is hardware reset, whatever the phase and the other pins; then the release. -/
theorem hardwareResetWins : Obligations.HardwareResetWins := by
  refine ⟨fun s hrst => ⟨_, step_rst hrst, rfl, rfl, rfl, rfl⟩, fun s t hrst h => ?_, fun s => step_inReset⟩
  rw [step_rst hrst] at h
  cases h
  exact ⟨rfl, rfl, rfl⟩

/-- Settles O34: the idle step, which keeps the phase and with it `cmd_ready`. -/
theorem idleInstanceKeepsItsState : Obligations.IdleInstanceKeepsItsState := fun _ hready hrst hvalid =>
  ⟨step_idle hready hrst hvalid, rfl, rfl, congrArg Phase.cmdReady hready⟩

end Sys2Proof.Machine
end

-- Resets and hazards (spec/70_reset_and_hazards.md R121, R122, R129; spec/10_state.md R31, R33)
section
/-! SUPPORT. A command abandoned by `rst`, and the abstract state of an instance in the initial state of R31. -/

namespace Sys2Proof.Machine

theorem abandonCommand_of_decode {w : BitVec 10} {i : Instr} {s : State} (h : decode w = .ok i) :
    abandonCommand w s = .next s.hardwareReset := by
  simp [abandonCommand, h]

/-- A command accepted and abandoned in the same step leaves what a hardware reset leaves, whatever the command (R129). -/
theorem step_abandon {s : State} {i : Instr} (hready : s.engine.phase = .ready) (hrst : s.sample.pins.rst = false)
    (hvalid : s.sample.pins.cmdValid = true) (hmid : s.sample.pins.rstMidCommand = true)
    (hdecode : decode s.sample.pins.cmd = .ok i) : step s = .next s.sample.hardwareReset := by
  rw [step, State.sample_engine, hready, portEvent_offered hrst hvalid, if_pos hmid]
  exact abandonCommand_of_decode hdecode

/-- Hash state, fill and length of R31 fix the abstract state between commands, whatever `BUF`, `REG` and `SCHED` hold (R33). -/
theorem Engine.view_eq_initial {v : Variant} {m : Engine v} (hready : m.phase = .ready) (hhash : m.h = initialHash v)
    (hfill : m.fill = 0) (hlen : m.len = 0) : m.view = (Engine.initial v).view := by
  have hpending : m.pending = (Engine.initial v).pending := by
    rw [Engine.pending_of_fill_zero hfill, Engine.pending_of_fill_zero rfl]
  exact Engine.view_eq_iff.2 ⟨hhash, hfill, hlen, hpending, hready⟩

/-- Settles O35: each of the three resets leaves the values of R31 between commands. -/
theorem threeResetsLeaveOneView : Obligations.ThreeResetsLeaveOneView := fun s hready hrsp =>
  ⟨_, _, _, exec_reset s, exec_finish_ready hrsp, Engine.view_eq_initial hready rfl rfl rfl,
    Engine.view_eq_initial rfl rfl rfl rfl, Engine.view_eq_initial rfl rfl rfl rfl⟩

/-- Settles O33: in both cases the step is a hardware reset, which adds no response. -/
theorem abandonedCommandLeavesTheInitialState : Obligations.AbandonedCommandLeavesTheInitialState :=
  ⟨fun _ _ hready hrst hvalid hmid hdecode =>
      ⟨_, step_abandon hready hrst hvalid hmid hdecode, rfl, rfl, rfl, rfl⟩,
    fun _ _ _ hrst => ⟨_, step_rst hrst, rfl, rfl, rfl, rfl⟩⟩

end Sys2Proof.Machine
end
